-- ==== Sys2Proof/Word.lean ====
section
/-! DEFINITION. The one word size of the LS-8: the byte (00_scope R4, R6). Registers, memory cells, `pc`, `sp` and every
instruction byte are 8 bits wide and unsigned. -/

namespace Sys2Proof

/-- A byte, 8 bits, unsigned, bit 7 most significant (R6). `BitVec` arithmetic on it is the `mod 256` of the rules. -/
abbrev Byte := BitVec 8

/-- An address of the one address space, 0x00 to 0xFF (R30, R44). -/
abbrev Addr := BitVec 8

/-- The index of a general register that exists, 0 to 7 (R10). -/
abbrev RegIndex := Fin 8

end Sys2Proof
end

