-- ==== Sys2Proof/Config.lean ====
section
/-! DEFINITION. The fixed parameters of the hardware (00_scope R4). The open parameter `REG_INIT` (R5) is an argument of
`State.resetWith`; the value `State.reset` takes for it is `Sys2Proof.Machine.regInit` (Machine/RegInit.lean, log 1). -/

namespace Sys2Proof

/-- `MEM_CELLS`: the number of memory cells (R4). -/
def Config.memCells : Nat := 256

/-- What a cell holds after reset, hence what an unlisted address reads as (R24, R31). -/
def Config.memInit : Byte := 0x00#8

/-- `SP_INIT`: the reset value of `sp`, and the empty-stack sentinel (R4, R17). -/
def Config.spInit : Addr := 0xF4#8

/-- `PC_INIT`: the reset value of `pc`, the entry point (R4, R24). -/
def Config.pcInit : Addr := 0x00#8

/-- `LOAD_BASE`: the address of the first image byte (R4, R26). -/
def Config.loadBase : Addr := 0x00#8

/-- `ILEN_MAX`: the longest instruction, in bytes (R4). -/
def Config.ilenMax : Nat := 3

end Sys2Proof
end

