-- ==== Sys2Proof/Syntax.lean ====
section
/-! DEFINITION. The six instructions (30_encoding R53), with their operands as the raw bytes the spec says they are
(R58): a register operand is the byte itself, 0 to 255, because an index above 7 is a fault of the instruction's
execution (R59), not of its decoding. -/

namespace Sys2Proof

/-- One constructor per row of the opcode table (R53). -/
inductive Instr where
  /-- LDI Ra,imm: load immediate (R90). -/
  | ldi (ra imm : Byte)
  /-- PRN Ra: print register (R95). -/
  | prn (ra : Byte)
  /-- MUL Ra,Rb: multiply registers (R103). -/
  | mul (ra rb : Byte)
  /-- HLT: halt (R110). -/
  | hlt
  /-- POP Ra: pop to register (R117). -/
  | pop (ra : Byte)
  /-- PUSH Ra: push register (R116). -/
  | push (ra : Byte)
  deriving DecidableEq, Repr

/-- The length in bytes, opcode included (R51, R53). -/
def Instr.length : Instr → Nat
  | .ldi _ _ => 3
  | .prn _ => 2
  | .mul _ _ => 3
  | .hlt => 1
  | .pop _ => 2
  | .push _ => 2

end Sys2Proof
end

