-- ==== Sys2Proof/WellFormed.lean ====
section
/-! DEFINITION. Which instructions name only registers that exist: every register operand byte is in 0..7 (30_encoding
R59). An ill-formed instruction still decodes and still has its meaning: it raises `RegisterIndexFault` (R134). -/

namespace Sys2Proof

/-- The byte names one of `x[0..7]` (R59). -/
def regOk (r : Byte) : Bool := r.toNat < 8

/-- Every register operand is a register that exists. -/
def Instr.wf : Instr → Bool
  | .ldi ra _ => regOk ra
  | .prn ra => regOk ra
  | .mul ra rb => regOk ra && regOk rb
  | .hlt => true
  | .pop ra => regOk ra
  | .push ra => regOk ra

end Sys2Proof
end

