-- ==== Sys2Proof/Decode.lean ====
section
/-! DEFINITION. The decoder and, after it, the encoder, both from the opcode map and the format table (30_encoding R51,
R53). Decoding is an exact match of the whole opcode byte (R54); the operand bytes take no part in it and are kept as
they are (R58). -/

namespace Sys2Proof

/-- The closed set of opcodes (R53, R54). -/
inductive Opcode where
  | ldi
  | prn
  | mul
  | hlt
  | pop
  | push
  deriving DecidableEq, Repr

/-- Why bytes do not decode. -/
inductive DecodeRefusal where
  /-- The opcode byte has no row in the opcode map (R56): the only refusal a fetch can meet. -/
  | unboundOpcode (op : Byte)
  /-- The list of bytes is empty (a finite list only: memory always has a next byte). -/
  | noBytes
  /-- The list ends before the instruction does (a finite list only). -/
  | truncated (op : Byte)
  deriving DecidableEq, Repr

/-- The opcode map (R53): six bound bytes, every other byte unbound (R56). -/
def opcodeOf (b : Byte) : Option Opcode :=
  if b = 0x82#8 then some .ldi
  else if b = 0x47#8 then some .prn
  else if b = 0xA2#8 then some .mul
  else if b = 0x01#8 then some .hlt
  else if b = 0x46#8 then some .pop
  else if b = 0x45#8 then some .push
  else none

/-- The operand roles of the formats N, R, RI and RR (R51): byte 1 is `operand_a`, byte 2 `operand_b`. -/
def assemble (o : Opcode) (a b : Byte) : Instr :=
  match o with
  | .ldi => .ldi a b
  | .prn => .prn a
  | .mul => .mul a b
  | .hlt => .hlt
  | .pop => .pop a
  | .push => .push a

/-- Decoding of the three bytes at an address; bytes an instruction does not have are not looked at (R54, R55). -/
def decodeWord (op a b : Byte) : Except DecodeRefusal Instr :=
  match opcodeOf op with
  | some o => .ok (assemble o a b)
  | none => .error (.unboundOpcode op)

/-- Decoding of a list of bytes: the first instruction and the bytes after it. Total; it refuses by name. -/
def decode : List Byte → Except DecodeRefusal (Instr × List Byte)
  | [] => .error .noBytes
  | op :: rest =>
    match decodeWord op (rest.getD 0 0) (rest.getD 1 0) with
    | .error e => .error e
    | .ok i =>
      if rest.length + 1 < i.length then .error (.truncated op)
      else .ok (i, rest.drop (i.length - 1))

/-- The opcode byte of an instruction (R53). -/
def Instr.opcode : Instr → Byte
  | .ldi _ _ => 0x82#8
  | .prn _ => 0x47#8
  | .mul _ _ => 0xA2#8
  | .hlt => 0x01#8
  | .pop _ => 0x46#8
  | .push _ => 0x45#8

/-- The operand bytes of an instruction, in ascending address order (R33, R51, R62). -/
def Instr.operands : Instr → List Byte
  | .ldi ra imm => [ra, imm]
  | .prn ra => [ra]
  | .mul ra rb => [ra, rb]
  | .hlt => []
  | .pop ra => [ra]
  | .push ra => [ra]

/-- The bytes of an instruction at ascending addresses: opcode, `operand_a`, `operand_b` (R33, R51). -/
def encode (i : Instr) : List Byte := i.opcode :: i.operands

/-- The opcode table's number of an instruction as its bytes, the first byte lowest: the three bytes a longest
instruction has, every bit at or above `nbits` zero. -/
def tableBytes (nbits w : Nat) : List Byte :=
  let v := w % 2 ^ nbits
  [BitVec.ofNat 8 v, BitVec.ofNat 8 (v / 2 ^ 8), BitVec.ofNat 8 (v / 2 ^ 16)]

/-- What the decoder reads from an instruction numbered as spec/opcode_table.json numbers its bits. -/
def decodeTableWord (nbits w : Nat) : Option Instr :=
  match decode (tableBytes nbits w) with
  | .ok (i, _) => some i
  | .error _ => none

end Sys2Proof
end

