-- ==== Sys2Proof/Machine/RegInit.lean ====
section
/-! DEFINITION. The value `State.reset` takes for the open parameter `REG_INIT` (00_scope R5, 92 D8). DESIGN CHOICE,
unsafe (log 1): the spec gives the general registers no reset value. No statement rests on it: statements about reset
are about `State.resetWith`, for every `REG_INIT`. -/

namespace Sys2Proof.Machine

/-- `REG_INIT` of `State.reset`: zero in each of the eight registers. DESIGN CHOICE (log 1). -/
def regInit : Vector Byte 8 := #v[0#8, 0#8, 0#8, 0#8, 0#8, 0#8, 0#8, 0#8]

end Sys2Proof.Machine
end

