-- ==== Sys2Proof/Machine/State.lean ====
section
/-! DEFINITION. The complete architectural state (10_state R23) as plain data, the faults the hardware records in its
`status` (60_exceptions R131), the Host's two stop reasons, and the state after reset (R24). -/

namespace Sys2Proof.Machine

/-- Memory: the cells that do not hold the reset value, by address. The canonical form is `Memory.wf`
(Machine/Memory.lean). -/
abbrev Memory := List Host.Cell

/-- The reason a load failed (R136). The first two arise outside the core (R3). -/
inductive LoadReason where
  | sourceMissing
  | sourceUnreadable
  /-- A relevant line does not parse as base 2 (R61). -/
  | notBinary
  /-- A parsed value above 255 (R61, D15). -/
  | valueAbove255
  /-- An image of more than 256 bytes (R26, D9). -/
  | imageTooLong
  deriving DecidableEq, Repr

/-- The fault kinds with the `info` each records, in the order of their codes 1 to 5 (R131). -/
inductive FaultKind where
  /-- Raised by the loader before any step (R136). -/
  | loadError (reason : LoadReason)
  /-- An unbound opcode byte was fetched: the address and the byte (R132). -/
  | decodeError (pc op : Byte)
  /-- Never raised (R135). -/
  | aluDispatchError
  /-- A POP while `sp` holds the sentinel: the address of the POP (R133). -/
  | stackEmpty (pc : Byte)
  /-- A register operand byte above 7: the address of the instruction and the byte (R134). -/
  | registerIndexFault (pc index : Byte)
  deriving DecidableEq, Repr

/-- The `status` element (R19, R70). -/
inductive Status where
  | running
  /-- Terminal, entered only by HLT. -/
  | halted
  /-- Terminal, entered only by a raise. -/
  | faulted (kind : FaultKind)
  deriving DecidableEq, Repr

/-- The complete architectural state (R23). -/
structure State where
  /-- The memory array (R20). -/
  mem : Memory
  /-- The general registers (R10). -/
  x : Vector Byte 8
  /-- The program counter (R13). -/
  pc : Addr
  /-- The stack pointer, no member of `x` (R12, R16). -/
  sp : Addr
  /-- The running flag (R18). -/
  run : Bool
  /-- How the machine stands (R19). -/
  status : Status
  /-- The bytes emitted since reset, oldest first (R21). -/
  out : List Byte
  deriving DecidableEq, Repr

/-- Why a step stops without a next state. A fault of the HARDWARE is no such stop: it is a next state whose `status`
says it (R138, log 3). -/
inductive Fault where
  /-- Raised by `step` in the terminal state `Halted`, which has no step (R70, D19, log 4). Safe: nothing is claimed of
  a state after it. -/
  | noStepHalted
  /-- Raised by `step` in a terminal state `Faulted`, which has no step (R70, D19, log 4). Safe, as above. -/
  | noStepFaulted (kind : FaultKind)
  deriving DecidableEq, Repr

/-- Why an instruction has no meaning in the model. -/
inductive Refusal where
  /-- Raised by `exec` for an instruction not modelled yet: no arm raises it, every instruction has its meaning. Safe. -/
  | notModelled (mnemonic : String)
  deriving DecidableEq, Repr

/-- The state after reset for a given `REG_INIT`, before any image is loaded (R24, R160). -/
def State.resetWith (regs : Vector Byte 8) : State where
  mem := []
  x := regs
  pc := Config.pcInit
  sp := Config.spInit
  run := true
  status := .running
  out := []

/-- The machine right after reset, with the model's own `REG_INIT` (log 1). -/
def State.reset : State := State.resetWith regInit

end Sys2Proof.Machine
end

