-- ==== Sys2Proof/Machine/Memory.lean ====
section
/-! DEFINITION. The memory array as the two primitives see it (20_memory R31), over the canonical list of cells. Every
address is 8 bits, so every access is admitted and none can fault (R31, R44, R46). -/

namespace Sys2Proof.Machine

/-- The byte listed at an address, or the reset value (R31). -/
def Memory.cellAt : Memory → Nat → Byte
  | [], _ => Config.memInit
  | (k, v) :: m, a => if k = a then v else Memory.cellAt m a

/-- `MemRead(a, 1)` (R31). -/
def Memory.read (m : Memory) (a : Addr) : Byte := Memory.cellAt m a.toNat

/-- Insertion of a cell in front of the first higher address. -/
def Memory.insertCell (c : Host.Cell) : Memory → Memory
  | [] => [c]
  | d :: m => if c.1 < d.1 then c :: d :: m else d :: Memory.insertCell c m

/-- The cells at every other address. -/
def Memory.erase (m : Memory) (a : Nat) : Memory := m.filter (fun c => c.1 ≠ a)

/-- `MemWrite(a, 1, v)` (R31): the value an unlisted address reads as is stored by removing the entry. -/
def Memory.write (m : Memory) (a : Addr) (v : Byte) : Memory :=
  if v = Config.memInit then Memory.erase m a.toNat
  else Memory.insertCell (a.toNat, v) (Memory.erase m a.toNat)

/-- `MemWrite` of a list of bytes at ascending addresses, wrapping at the top (R33, R44). -/
def Memory.writeList (m : Memory) (a : Addr) : List Byte → Memory
  | [] => m
  | v :: vs => Memory.writeList (Memory.write m a v) (a + 1#8) vs

/-- The canonical form: addresses strictly rising, inside the address space, and no entry equal to what an unlisted
address reads as. -/
abbrev Memory.wf (m : Memory) : Prop :=
  m.Pairwise (fun c d => c.1 < d.1) ∧ ∀ c ∈ m, c.1 < Config.memCells ∧ c.2 ≠ Config.memInit

end Sys2Proof.Machine
end

