-- ==== Sys2Proof/Machine/Ops.lean ====
section
/-! DEFINITION. The named operations over registers, program counter and output that the instruction rules are written
in (00_scope R7), taking a fault (60_exceptions R138), and reset, the only way out of a terminal state (R139, R160). -/

namespace Sys2Proof.Machine

/-- What a step or an instruction answers. -/
abbrev Result := Host.Outcome State Fault Refusal

/-- `x[i]` (R10). -/
def readReg (i : RegIndex) (s : State) : Byte := s.x[i]

/-- `x[i] <- v` (R10). No register is hard-wired. -/
def writeReg (i : RegIndex) (v : Byte) (s : State) : State := { s with x := s.x.set i v }

/-- `MemRead(a, 1)` (R31). -/
def memRead (a : Addr) (s : State) : Byte := s.mem.read a

/-- `MemWrite(a, 1, v)` (R31). -/
def memWrite (a : Addr) (v : Byte) (s : State) : State := { s with mem := s.mem.write a v }

/-- `pc <- (pc + n) mod 256` (R14, R15). The wrap at the top is the spec's decision D2 (log 5). -/
def advancePc (n : Nat) (s : State) : State := { s with pc := s.pc + BitVec.ofNat 8 n }

/-- `Emit(v)`: one transaction of the output port, which never stalls (R21, R27). -/
def emit (v : Byte) (s : State) : State := { s with out := s.out ++ [v] }

/-- The state a fault leaves: `status` says the kind, every other element is as before the step (R138, D6, log 3). -/
def enterFault (k : FaultKind) (s : State) : State := { s with status := .faulted k }

/-- `raise K(info)`: taking a fault is a next state, the terminal `Faulted` (R130, R138). There is no return from it
(R139). -/
def raise (k : FaultKind) (s : State) : Result := .next (enterFault k s)

/-- Reset applied in any state, terminal or not: every element takes its reset value (R25, R160, R171, D16, log 16). -/
def applyReset (regs : Vector Byte 8) (_ : State) : State := State.resetWith regs

end Sys2Proof.Machine
end

