-- ==== Sys2Proof/Machine/Operands.lean ====
section
/-! DEFINITION. The two operand forms (30_encoding R58): an immediate byte is taken as it stands, a register byte is an
index that must name a register that exists (R59). -/

namespace Sys2Proof.Machine

/-- The immediate operand: unsigned, register width already, neither extended, scaled nor shifted (R58). -/
def immediate (imm : Byte) : Byte := imm

/-- `CheckReg(i)` and then the rest of the instruction: a byte above 7 raises before any effect, and its upper bits are
not ignored (R7, R59, R134, D5, log 7). -/
def checkReg (i : Byte) (s : State) (rest : RegIndex → Result) : Result :=
  if h : i.toNat < 8 then rest ⟨i.toNat, h⟩ else raise (.registerIndexFault s.pc i) s

end Sys2Proof.Machine
end

