-- ==== Sys2Proof/Machine/Alu.lean ====
section
/-! DEFINITION. The ALU block (43_alu R100 to R102) and MUL, the one instruction that drives it (R103). ADD is an
operation of the block that no opcode reaches (R101). -/

namespace Sys2Proof.Machine

/-- The closed set of ALU operations (R100, D13, log 11). -/
inductive AluOp where
  | add
  | mul
  deriving DecidableEq, Repr

/-- `ALU(op, a, b)`: the low 8 bits of the true result; no carry, no flag, nothing else recorded (R101, R102, R105). -/
def alu (op : AluOp) (a b : Byte) : Byte :=
  match op with
  | .add => a + b
  | .mul => a * b

/-- `AluExec(op, ra, rb)`: both registers are read before the result is written to the first (R100). -/
def aluExec (op : AluOp) (ra rb : RegIndex) (s : State) : State :=
  writeReg ra (alu op (readReg ra s) (readReg rb s)) s

/-- MUL Ra,Rb (R103). `operand_a` is checked first (R59, R137). -/
def execMul (ra rb : Byte) (s : State) : Result :=
  checkReg ra s fun a => checkReg rb s fun b => .next (advancePc 3 (aluExec .mul a b s))

end Sys2Proof.Machine
end

