-- ==== Sys2Proof/Machine/Flags.lean ====
section
/-! DEFINITION. The hardware has no condition flags and no status register (10_state R22): no instruction computes one.
What stands here is its only control bit, the running flag, with the `status` that goes with it (R18, R19). -/

namespace Sys2Proof.Machine

/-- `run <- false; status <- Halted` (R110). -/
def stopLoop (s : State) : State := { s with run := false, status := .halted }

/-- Why there is no step from this status: none while `Running`, and one name for each terminal status (R70). -/
def noStep : Status → Option Fault
  | .running => none
  | .halted => some .noStepHalted
  | .faulted k => some (.noStepFaulted k)

end Sys2Proof.Machine
end

