-- ==== Sys2Proof/Machine/Halt.lean ====
section
/-! DEFINITION. HLT (44_halt R110). -/

namespace Sys2Proof.Machine

/-- HLT (R110): `pc` keeps the address of the HLT byte, and nothing but `run` and `status` is written. -/
def execHlt (s : State) : Result := .next (stopLoop s)

end Sys2Proof.Machine
end

