-- ==== Sys2Proof/Machine/LoadImmediate.lean ====
section
/-! DEFINITION. LDI (41_load_immediate R90). -/

namespace Sys2Proof.Machine

/-- LDI Ra,imm (R90). -/
def execLdi (ra imm : Byte) (s : State) : Result :=
  checkReg ra s fun a => .next (advancePc 3 (writeReg a (immediate imm) s))

end Sys2Proof.Machine
end

