-- ==== Sys2Proof/Machine/Output.lean ====
section
/-! DEFINITION. PRN (42_output R95), and the text a console shows for the bytes it emits (R96). -/

namespace Sys2Proof.Machine

/-- PRN Ra (R95). -/
def execPrn (ra : Byte) (s : State) : Result :=
  checkReg ra s fun a => .next (advancePc 2 (emit (readReg a s) s))

/-- The character of one decimal digit. -/
def digitChar (n : Nat) : Char := Char.ofNat ('0'.toNat + n)

/-- The decimal numeral of a byte: no sign, no leading zeros, no padding, one to three digits (R96, D10, log 14). -/
def decimal (v : Byte) : List Char :=
  let n := v.toNat
  if n < 10 then [digitChar n]
  else if n < 100 then [digitChar (n / 10), digitChar (n % 10)]
  else [digitChar (n / 100), digitChar (n / 10 % 10), digitChar (n % 10)]

/-- The console text of an output stream: one line a byte, in order, each ended by U+000A (R96, R97). -/
def consoleText : List Byte → List Char
  | [] => []
  | v :: vs => decimal v ++ '\n' :: consoleText vs

end Sys2Proof.Machine
end

