-- ==== Sys2Proof/Machine/Stack.lean ====
section
/-! DEFINITION. The stack controller, PUSH and POP (45_stack R115 to R118): the stack descends in the one memory, `sp`
addresses the next free cell, and the only check ever made is POP's equality with the sentinel (R118, R120). -/

namespace Sys2Proof.Machine

/-- The address PUSH stores at: the `sp` before the decrement (R44, R116). -/
def pushAddr (s : State) : Addr := s.sp

/-- The address POP reads, and its new `sp`; it wraps from 0xFF to 0x00 (R44, R117, D3, log 6). -/
def popAddr (s : State) : Addr := s.sp + 1#8

/-- Store at `sp`, then move down; 0x00 goes to 0xFF (R116). -/
def pushByte (v : Byte) (s : State) : State :=
  { memWrite (pushAddr s) v s with sp := s.sp - 1#8 }

/-- The byte at the top of the stack, which stays in its cell (R117, R124). -/
def topByte (s : State) : Byte := memRead (popAddr s) s

/-- Move up, then load into a register (R117). -/
def popByte (a : RegIndex) (s : State) : State :=
  { writeReg a (topByte s) s with sp := popAddr s }

/-- The empty-stack condition: the equality and nothing else (R118). -/
def stackIsEmpty (s : State) : Bool := s.sp == Config.spInit

/-- PUSH Ra (R116). -/
def execPush (ra : Byte) (s : State) : Result :=
  checkReg ra s fun a => .next (advancePc 2 (pushByte (readReg a s) s))

/-- POP Ra (R117): the empty stack is tested before the register operand (R137, D14, log 13). -/
def execPop (ra : Byte) (s : State) : Result :=
  if stackIsEmpty s then raise (.stackEmpty s.pc) s
  else checkReg ra s fun a => .next (advancePc 2 (popByte a s))

end Sys2Proof.Machine
end

