-- ==== Sys2Proof/Machine/Dispatch.lean ====
section
/-! DEFINITION. Handler selection: one arm per instruction (40_dispatch R71, R73). -/

namespace Sys2Proof.Machine

def exec (i : Instr) (s : State) : Host.Outcome State Fault Refusal :=
  match i with
  | .ldi ra imm => Sys2Proof.Machine.execLdi ra imm s
  | .prn ra => Sys2Proof.Machine.execPrn ra s
  | .mul ra rb => Sys2Proof.Machine.execMul ra rb s
  | .hlt => Sys2Proof.Machine.execHlt s
  | .pop ra => Sys2Proof.Machine.execPop ra s
  | .push ra => Sys2Proof.Machine.execPush ra s

end Sys2Proof.Machine
end

