-- ==== Sys2Proof/Machine/Fetch.lean ====
section
/-! DEFINITION. Fetch, decode and the handler call of one step (40_dispatch R71 to R74). -/

namespace Sys2Proof.Machine

/-- The opcode byte, read at `pc` from memory as it stands at the start of the step (R72). -/
def opcodeByte (s : State) : Byte := memRead s.pc s

/-- The byte at `(pc+1) mod 256` (R74, D2, log 5). -/
def operandA (s : State) : Byte := memRead (s.pc + 1#8) s

/-- The byte at `(pc+2) mod 256` (R74, D2, log 5). -/
def operandB (s : State) : Byte := memRead (s.pc + 2#8) s

/-- The instruction at `pc`. Bytes an instruction does not have are read and dropped: reads have no effect (R35,
log 2). -/
def fetchDecode (s : State) : Except DecodeRefusal Instr :=
  decodeWord (opcodeByte s) (operandA s) (operandB s)

/-- One step of a running machine: the handler of the opcode, or `DecodeError(pc, op)` (R71, R132). -/
def runInstruction (s : State) : Result :=
  match fetchDecode s with
  | .ok i => exec i s
  | .error _ => raise (.decodeError s.pc (opcodeByte s)) s

/-- The step: it needs `status = Running` (R70, R71); a terminal state has none (D19, log 4). It
alone tests the status, no instruction does (log 18). -/
def stepOnce (s : State) : Result :=
  match noStep s.status with
  | some f => .fault f
  | none => runInstruction s

/-- The state with an instruction of the opcode table stored where the next fetch reads it: three bytes from `pc` on. -/
def placeAtPc (s : State) (nbits w : Nat) : State :=
  { s with mem := Memory.writeList s.mem s.pc (tableBytes nbits w) }

end Sys2Proof.Machine
end

