-- ==== Sys2Proof/Machine/Step.lean ====
section
/-! DEFINITION. The step of the machine (40_dispatch R71). -/

namespace Sys2Proof.Machine

/-- One step executes one whole instruction (R71). -/
def step (s : State) : Host.Outcome State Fault Refusal := stepOnce s

/-- `s` with an instruction, numbered as the opcode table numbers its bits, where `step` fetches next. It stands for the
host's load (R26, log 17). -/
def State.withFetchWord (s : State) (nbits w : Nat) : State := placeAtPc s nbits w

end Sys2Proof.Machine
end

