-- ==== Sys2Proof/Laws/PerInstr.lean ====
section
/-! SUPPORT. The shape of every instruction's encoding (30_encoding R51, R53, R55): its length, and a first byte that is the
bound opcode of that instruction. -/

namespace Sys2Proof.Laws.EncodingShape

/-- The encoding has the instruction's length, 1 to 3 bytes, and its first byte is the opcode the map binds to it. -/
def Statement (i : Instr) : Prop :=
  (encode i).length = i.length ∧ 1 ≤ i.length ∧ i.length ≤ Config.ilenMax ∧
    ∃ o rest, encode i = i.opcode :: rest ∧ opcodeOf i.opcode = some o ∧
      i = assemble o (rest.getD 0 0) (rest.getD 1 0)

theorem ldi (ra imm : Byte) : Statement (.ldi ra imm) :=
  ⟨rfl, (by decide : 1 ≤ 3), (by decide : 3 ≤ 3), .ldi, _, rfl, rfl, rfl⟩

theorem prn (ra : Byte) : Statement (.prn ra) :=
  ⟨rfl, (by decide : 1 ≤ 2), (by decide : 2 ≤ 3), .prn, _, rfl, rfl, rfl⟩

theorem mul (ra rb : Byte) : Statement (.mul ra rb) :=
  ⟨rfl, (by decide : 1 ≤ 3), (by decide : 3 ≤ 3), .mul, _, rfl, rfl, rfl⟩

theorem hlt : Statement .hlt :=
  ⟨rfl, (by decide : 1 ≤ 1), (by decide : 1 ≤ 3), .hlt, _, rfl, rfl, rfl⟩

theorem pop (ra : Byte) : Statement (.pop ra) :=
  ⟨rfl, (by decide : 1 ≤ 2), (by decide : 2 ≤ 3), .pop, _, rfl, rfl, rfl⟩

theorem push (ra : Byte) : Statement (.push ra) :=
  ⟨rfl, (by decide : 1 ≤ 2), (by decide : 2 ≤ 3), .push, _, rfl, rfl, rfl⟩

end Sys2Proof.Laws.EncodingShape
end

