-- ==== Sys2Proof/Machine/Load.lean ====
section
/-! DEFINITION. The load interface (10_state R26, 70_reset R162, R163, 60_exceptions R136) and, outside the core but fixed
by the spec, the image text a loader reads (30_encoding R61). -/

namespace Sys2Proof.Machine

/-- The load of an image: one byte per ascending address from 0x00 on, nothing but `mem` touched (R26, R162). An image of
more than 256 bytes is refused before any step (R136, D9, log 10). -/
def loadImage (image : List Byte) (s : State) : State :=
  if image.length ≤ Config.memCells then { s with mem := s.mem.writeList Config.loadBase image }
  else enterFault (.loadError .imageTooLong) s

/-- The loaded start state of a run (R163). -/
def start (regs : Vector Byte 8) (image : List Byte) : State := loadImage image (State.resetWith regs)

/-- One base-2 digit. -/
def bitOf (c : Char) : Option Nat := if c = '0' then some 0 else if c = '1' then some 1 else none

/-- The value of a base-2 numeral read left to right, from an accumulated value on; none if a character is no base-2
digit. -/
def binaryFrom : Nat → List Char → Option Nat
  | n, [] => some n
  | n, c :: cs =>
    match bitOf c with
    | some d => binaryFrom (2 * n + d) cs
    | none => none

/-- The white space a line is trimmed of (log 15). -/
def isBlank (c : Char) : Bool := c == ' ' || c == '\t' || c == '\r'

/-- Text without the white space at its end (a relevant line has none at its start). -/
def trimEnd (cs : List Char) : List Char := (cs.reverse.dropWhile isBlank).reverse

/-- The byte of a relevant line: what stands before a `#`, trimmed, is a base-2 numeral of at most 255 (R61, D15). -/
def lineByte (cs : List Char) : Except LoadReason Byte :=
  match binaryFrom 0 (trimEnd (cs.takeWhile (fun c => c ≠ '#'))) with
  | none => .error .notBinary
  | some n => if n ≤ 255 then .ok (BitVec.ofNat 8 n) else .error .valueAbove255

/-- A line is relevant when its first character is `0` or `1`; every other line is ignored (R61, D15). -/
def lineRelevant : List Char → Bool
  | [] => false
  | c :: _ => c == '0' || c == '1'

/-- The image of a list of lines, in line order; a bad line is a load error (R61). Where several lines are bad, that the
reason of the first is the one recorded is the model's choice (DESIGN CHOICE, log 20). -/
def imageOfLines : List (List Char) → Except LoadReason (List Byte)
  | [] => .ok []
  | l :: ls =>
    if lineRelevant l then
      match lineByte l with
      | .error e => .error e
      | .ok v =>
        match imageOfLines ls with
        | .error e => .error e
        | .ok vs => .ok (v :: vs)
    else imageOfLines ls

/-- The lines of a text, split at U+000A; the first argument is the line read so far. -/
def linesFrom (line : List Char) : List Char → List (List Char)
  | [] => [line]
  | c :: cs => if c = '\n' then line :: linesFrom [] cs else linesFrom (line ++ [c]) cs

/-- The image of a program text (R61). -/
def imageOfText (text : List Char) : Except LoadReason (List Byte) := imageOfLines (linesFrom [] text)

/-- One base-2 digit in text. -/
def bitChar (b : Bool) : Char := if b then '1' else '0'

/-- A byte as eight base-2 digits, bit 7 first (R6, R61). -/
def binaryText (v : Byte) : List Char :=
  [bitChar (v.getLsbD 7), bitChar (v.getLsbD 6), bitChar (v.getLsbD 5), bitChar (v.getLsbD 4),
    bitChar (v.getLsbD 3), bitChar (v.getLsbD 2), bitChar (v.getLsbD 1), bitChar (v.getLsbD 0)]

/-- A program text of an image: one byte a line (R61). -/
def textOfImage : List Byte → List Char
  | [] => []
  | v :: vs => binaryText v ++ '\n' :: textOfImage vs

/-- Where a loader gets its text, as far as the core can tell (R3, R136). -/
inductive ImageSource where
  | missing
  | unreadable
  | text (chars : List Char)
  deriving DecidableEq, Repr

/-- The image a source gives, or why it gives none (R136). -/
def imageOfSource : ImageSource → Except LoadReason (List Byte)
  | .missing => .error .sourceMissing
  | .unreadable => .error .sourceUnreadable
  | .text cs => imageOfText cs

/-- Load from a source: the load of its image, or `LoadError` with the core's state as it was (R136). That a bad line is
recorded before an image of more than 256 bytes is the model's choice (DESIGN CHOICE, log 20). -/
def loadSource (src : ImageSource) (s : State) : State :=
  match imageOfSource src with
  | .ok image => loadImage image s
  | .error e => enterFault (.loadError e) s

end Sys2Proof.Machine
end

