-- ==== Sys2Proof/Machine/StatusPort.lean ====
section
/-! DEFINITION. What the host reads from the status interface (10_state R28, 60_exceptions R131, R140, R141), and the result
of an ended run (40_dispatch R78). -/

namespace Sys2Proof.Machine

/-- The numeric code of a fault kind (R131, D7, log 19). -/
def faultCode : FaultKind → Nat
  | .loadError _ => 1
  | .decodeError _ _ => 2
  | .aluDispatchError => 3
  | .stackEmpty _ => 4
  | .registerIndexFault _ _ => 5

/-- The process exit status the host derives; none while running (R28, R140). -/
def exitStatus : Status → Option Nat
  | .running => none
  | .halted => some 0
  | .faulted _ => some 1

/-- The subsystem a diagnostic names (R141, D18, log 14). -/
def subsystem : FaultKind → String
  | .loadError _ => "load"
  | .decodeError _ _ => "run"
  | .aluDispatchError => "alu"
  | .stackEmpty _ => "run"
  | .registerIndexFault _ _ => "run"

/-- The words a diagnostic must contain, where the spec fixes any (R133, R141). -/
def fixedPhrase : FaultKind → Option String
  | .loadError _ => none
  | .decodeError _ _ => none
  | .aluDispatchError => none
  | .stackEmpty _ => some "stack is empty"
  | .registerIndexFault _ _ => none

/-- The result of an ended run: how it ended, what it printed, and the final elements the host may read (R45, R78). -/
structure RunResult where
  status : Status
  out : List Byte
  mem : Memory
  x : Vector Byte 8
  pc : Addr
  sp : Addr
  deriving DecidableEq, Repr

/-- The result, once the run has ended; a run that has not has none (R78). -/
def runResult (s : State) : Option RunResult :=
  if s.status = .running then none
  else some { status := s.status, out := s.out, mem := s.mem, x := s.x, pc := s.pc, sp := s.sp }

end Sys2Proof.Machine
end

