-- ==== Sys2Proof/Safety.lean ====
section
/-! DEFINITION. The terms claims are stated in: what stays the same over a step, when a run has gone wrong or ended
(60_exceptions R152, 40_dispatch R78), when it is wrap-free (10_state R15), and the invariant of the machine. -/

namespace Sys2Proof.Machine

/-- Every byte of memory reads as before. -/
def SameMemory (s t : State) : Prop := ∀ a : Addr, memRead a t = memRead a s

/-- Every byte of memory but the one at `d` reads as before. -/
def SameMemoryExcept (d : Addr) (s t : State) : Prop := ∀ a : Addr, a ≠ d → memRead a t = memRead a s

/-- Every general register holds what it held. -/
def SameRegs (s t : State) : Prop := ∀ i : RegIndex, readReg i t = readReg i s

/-- Every general register but `d` holds what it held. -/
def SameRegsExcept (d : RegIndex) (s t : State) : Prop := ∀ i : RegIndex, i ≠ d → readReg i t = readReg i s

/-- The run has ended (R78). -/
abbrev Ended (s : State) : Prop := s.status ≠ .running

/-- The run has gone wrong: it ended in `Faulted` (R152). -/
def GoneWrong (s : State) : Prop := ∃ k, s.status = .faulted k

/-- The state after `n` steps; where the machine has no step it stays, since a terminal state never changes (R70). -/
def runSteps : Nat → State → State
  | 0, s => s
  | n + 1, s =>
    match step s with
    | .next t => runSteps n t
    | .fault _ => s
    | .refused _ => s

/-- A list of instructions executed one after another, as far as each answers a next state. -/
def execAll : List Instr → State → Result
  | [], s => .next s
  | i :: is, s =>
    match exec i s with
    | .next t => execAll is t
    | .fault f => .fault f
    | .refused r => .refused r

/-- The operand byte that names a register (R58). -/
def regByte (i : RegIndex) : Byte := BitVec.ofNat 8 i.val

/-- How many bytes the instruction at `pc` occupies: its length, or the opcode byte alone where that is unbound (R51,
R55, R56). -/
def bytesAtPc (s : State) : Nat :=
  match fetchDecode s with
  | .ok i => i.length
  | .error _ => 1

/-- By how much the step at `s` advances `pc` (R14): by the instruction's length if the machine goes on, by nothing if
the step halts or faults, or if there is no step. -/
def advanceOf (s : State) : Nat :=
  match step s with
  | .next t => if t.status = .running then bytesAtPc s else 0
  | .fault _ => 0
  | .refused _ => 0

/-- The instruction a running machine executes next neither occupies an address past 0xFF nor advances `pc` past it
(R15). A terminal state executes none. -/
abbrev WrapFree (s : State) : Prop :=
  s.status = .running → s.pc.toNat + bytesAtPc s ≤ 256 ∧ s.pc.toNat + advanceOf s ≤ 255

/-- The link of `run` and `status` (R19). -/
abbrev StatusLink (s : State) : Prop := s.run = false ↔ s.status = .halted

/-- What a fault kind that names an instruction says of the state a step left: the recorded address is `pc`, and the
bytes there show the cause (R132 to R134, R138). A load error is no step's (R136), and an ALU dispatch error nobody's
(R135). -/
def faultShown (s : State) : FaultKind → Prop
  | .loadError _ => True
  | .decodeError p op => p = s.pc ∧ op = opcodeByte s ∧ opcodeOf op = none
  | .aluDispatchError => False
  | .stackEmpty p => p = s.pc ∧ opcodeOf (opcodeByte s) = some .pop ∧ s.sp = Config.spInit
  | .registerIndexFault p i =>
    p = s.pc ∧ 8 ≤ i.toNat ∧
      ((i = operandA s ∧ ∃ o, opcodeOf (opcodeByte s) = some o ∧ o ≠ .hlt) ∨
        (i = operandB s ∧ opcodeOf (opcodeByte s) = some .mul))

/-- A terminal state explains itself: `pc` addresses the instruction that halted or faulted (R13, R138). -/
def TerminalShown (s : State) : Prop :=
  match s.status with
  | .running => True
  | .halted => opcodeOf (opcodeByte s) = some .hlt
  | .faulted k => faultShown s k

/-- The invariant of the machine: memory in canonical form, `run` linked to `status`, a terminal state that explains
itself. -/
structure Inv (s : State) : Prop where
  mem : s.mem.wf
  link : StatusLink s
  shown : TerminalShown s

end Sys2Proof.Machine
end

