-- ==== Sys2Proof/Reference.lean ====
section
/-! DEFINITION. The pseudocode of the step and of the six instructions (40_dispatch R71, and R90, R95, R103, R110, R116,
R117) read as it is written: natural numbers, `mod 256` where the pseudocode writes it, memory and registers as functions
of an index. The machine of Machine/ is stated to refine it. -/

namespace Sys2Proof.Reference

open Sys2Proof.Machine

/-- `status`, a fault as its code (R131) and the numbers it records, in the order of R131's table. -/
inductive RefStatus where
  | running
  | halted
  | faulted (code : Nat) (info : List Nat)
  deriving DecidableEq, Repr

/-- The tuple of R23 in numbers. -/
structure RefState where
  mem : Nat → Nat
  x : Nat → Nat
  pc : Nat
  sp : Nat
  run : Bool
  status : RefStatus
  out : List Nat

/-- `f` with its value at `i` replaced. -/
def update (f : Nat → Nat) (i v : Nat) : Nat → Nat := fun j => if j = i then v else f j

/-- `raise K(info)` (R138). -/
def refFault (s : RefState) (code : Nat) (info : List Nat) : RefState := { s with status := .faulted code info }

/-- `CheckReg(i)` (R7). -/
def refCheckReg (s : RefState) (i : Nat) (rest : RefState) : RefState := if i > 7 then refFault s 5 [s.pc, i] else rest

/-- The six handlers and the decode error (R71). -/
def handler (s : RefState) (op a b : Nat) : RefState :=
  if op = 0x82 then refCheckReg s a { s with x := update s.x a b, pc := (s.pc + 3) % 256 }
  else if op = 0x47 then refCheckReg s a { s with out := s.out ++ [s.x a], pc := (s.pc + 2) % 256 }
  else if op = 0xA2 then
    refCheckReg s a (refCheckReg s b { s with x := update s.x a (s.x a * s.x b % 256), pc := (s.pc + 3) % 256 })
  else if op = 0x01 then { s with run := false, status := .halted }
  else if op = 0x46 then
    if s.sp = 0xF4 then refFault s 4 [s.pc]
    else refCheckReg s a
      { s with x := update s.x a (s.mem ((s.sp + 1) % 256)), sp := (s.sp + 1) % 256, pc := (s.pc + 2) % 256 }
  else if op = 0x45 then
    refCheckReg s a
      { s with mem := update s.mem s.sp (s.x a), sp := (s.sp + 255) % 256, pc := (s.pc + 2) % 256 }
  else refFault s 2 [s.pc, op]

/-- The step, which needs `status = Running` (R71). -/
def refStep (s : RefState) : Option RefState :=
  if s.status = .running then
    some (handler s (s.mem s.pc) (s.mem ((s.pc + 1) % 256)) (s.mem ((s.pc + 2) % 256)))
  else none

/-- A fault kind in numbers. -/
def toRefStatus : Status → RefStatus
  | .running => .running
  | .halted => .halted
  | .faulted (.loadError _) => .faulted 1 []
  | .faulted (.decodeError p op) => .faulted 2 [p.toNat, op.toNat]
  | .faulted .aluDispatchError => .faulted 3 []
  | .faulted (.stackEmpty p) => .faulted 4 [p.toNat]
  | .faulted (.registerIndexFault p i) => .faulted 5 [p.toNat, i.toNat]

/-- A machine state in numbers; outside 256 cells and 8 registers there is nothing, shown as 0. -/
def toRef (s : State) : RefState where
  mem n := if n < 256 then (memRead (BitVec.ofNat 8 n) s).toNat else 0
  x n := if h : n < 8 then (readReg ⟨n, h⟩ s).toNat else 0
  pc := s.pc.toNat
  sp := s.sp.toNat
  run := s.run
  status := toRefStatus s.status
  out := s.out.map BitVec.toNat

end Sys2Proof.Reference
end

