-- ==== Sys2Proof/Certificates/Slice0/Obligations.lean ====
section
/-! DEFINITION. The statements for the provers. "D<n>" in a docstring is a decision the spec took itself where its source is
silent (92_eei_decisions), with the log entry that follows it; a clause that rests on one says so. -/

open Sys2Proof Sys2Proof.Machine

/-! ### Encoding -/

/-- R51, R53, R55: an instruction's bytes decode to it, with every operand at every value, whatever follows them. -/
def Obligations.DecodeOfEncode : Prop :=
  ∀ (i : Instr) (rest : List Byte), decode (encode i ++ rest) = .ok (i, rest)

/-- R51, R53: bytes that decode are the encoding of what they decode to, followed by the rest. No two byte strings mean
one instruction. -/
def Obligations.DecodedBytesAreTheEncoding : Prop :=
  ∀ (bs : List Byte) (i : Instr) (rest : List Byte), decode bs = .ok (i, rest) → bs = encode i ++ rest

/-- The words of 95_test_vectors S9, the opcode written bit by bit (R53). -/
def Obligations.OpcodeTableWordsDecode : Prop :=
  decode [0b10000010#8, 0x02#8, 0x2C#8] = .ok (.ldi 2 44, []) ∧
  decode [0b01000111#8, 0x02#8] = .ok (.prn 2, []) ∧
  decode [0b10100010#8, 0x02#8, 0x03#8] = .ok (.mul 2 3, []) ∧
  decode [0b00000001#8] = .ok (.hlt, []) ∧
  decode [0b01000110#8, 0x02#8] = .ok (.pop 2, []) ∧
  decode [0b01000101#8, 0x02#8] = .ok (.push 2, [])

/-- R54, R55: the opcode byte alone, all eight bits of it, selects the instruction and its length. An unbound byte gives
neither. -/
def Obligations.DecodingIsExactMatch : Prop :=
  (∀ (op a b : Byte) (i : Instr), decodeWord op a b = .ok i ↔
    (op = 0x82#8 ∧ i = .ldi a b) ∨ (op = 0x47#8 ∧ i = .prn a) ∨ (op = 0xA2#8 ∧ i = .mul a b) ∨
    (op = 0x01#8 ∧ i = .hlt) ∨ (op = 0x46#8 ∧ i = .pop a) ∨ (op = 0x45#8 ∧ i = .push a)) ∧
  (∀ (op a b : Byte) (i : Instr), decodeWord op a b = .ok i →
    i.length = if op = 0x01#8 then 1 else if op = 0x82#8 ∨ op = 0xA2#8 then 3 else 2) ∧
  (∀ op a b : Byte, op ∉ [0x82#8, 0x47#8, 0xA2#8, 0x01#8, 0x46#8, 0x45#8] →
    decodeWord op a b = .error (.unboundOpcode op))

/-- R56, R132: each of the 250 unbound bytes, fetched as an opcode, is the fatal `DecodeError` with the address and the
byte: exit status 1 and no step after it. -/
def Obligations.UnboundOpcodeRaisesDecodeError : Prop :=
  ∀ (s : State) (op : Byte), s.status = .running → memRead s.pc s = op →
    (op.toNat = 0x00 ∨ (0x02 ≤ op.toNat ∧ op.toNat ≤ 0x44) ∨ (0x48 ≤ op.toNat ∧ op.toNat ≤ 0x81) ∨
      (0x83 ≤ op.toNat ∧ op.toNat ≤ 0xA1) ∨ (0xA3 ≤ op.toNat ∧ op.toNat ≤ 0xFF)) →
    ∃ t, step s = .next t ∧ t.status = .faulted (.decodeError s.pc op) ∧ exitStatus t.status = some 1 ∧
      ∃ f, step t = .fault f

/-! ### Reset and load -/

/-- R24, for every `REG_INIT`: the reset table, and the loaded start state as the reset state with the image laid over
memory from address 0. -/
def Obligations.ResetAndLoadedStartState : Prop :=
  ∀ regs : Vector Byte 8,
    ((∀ a, memRead a (State.resetWith regs) = 0x00#8) ∧ (∀ i : RegIndex, readReg i (State.resetWith regs) = regs[i]) ∧
      (State.resetWith regs).pc = 0x00#8 ∧ (State.resetWith regs).sp = 0xF4#8 ∧ (State.resetWith regs).run = true ∧
      (State.resetWith regs).status = .running ∧ (State.resetWith regs).out = []) ∧
    ∀ image : List Byte, image.length ≤ 256 →
      (∀ a : Addr, memRead a (start regs image) = image.getD a.toNat 0x00#8) ∧
      (start regs image).x = regs ∧ (start regs image).pc = 0x00#8 ∧ (start regs image).sp = 0xF4#8 ∧
      (start regs image).run = true ∧ (start regs image).status = .running ∧ (start regs image).out = []

/-- Reset applied in any state, terminal or not, leaves the reset state (D16, log 16); with no image loaded the first
step fetches 0x00, which is unbound (D4, log 8; D6, log 3). -/
def Obligations.ResetThenEmptyImageFaults : Prop :=
  ∀ (regs : Vector Byte 8) (s : State),
    applyReset regs s = State.resetWith regs ∧ start regs [] = State.resetWith regs ∧
    step (applyReset regs s) = .next { State.resetWith regs with status := .faulted (.decodeError 0x00#8 0x00#8) }

/-- An image of more than 256 bytes is a `LoadError` before any step, the core in its reset state (D9, log 10). -/
def Obligations.OverlongImageIsLoadError : Prop :=
  ∀ (regs : Vector Byte 8) (image : List Byte), 256 < image.length →
    start regs image = { State.resetWith regs with status := .faulted (.loadError .imageTooLong) } ∧
    exitStatus (start regs image).status = some 1 ∧ ∃ f, step (start regs image) = .fault f

/-- The image text (30_encoding, R61): a text with each byte as eight base-2 digits on a line of its own gives the
image. R61 does not say what ends a line and what an empty text gives: that a line ends at U+000A and that an empty text
gives the empty image are the model's own choice (log 15). -/
def Obligations.ImageTextRoundTrip : Prop :=
  ∀ image : List Byte, imageOfText (textOfImage image) = .ok image

/-- The image text: a comment plays no part, and a line that does not begin with `0` or `1` gives no byte (D15 for an
indented line, log 15). -/
def Obligations.CommentsAndOtherLinesIgnored : Prop :=
  (∀ (line comment : List Char) (lines : List (List Char)), '#' ∉ line → lineRelevant line = true →
    imageOfLines ((line ++ '#' :: comment) :: lines) = imageOfLines (line :: lines)) ∧
  (∀ (line : List Char) (lines : List (List Char)), line.head? ≠ some '0' → line.head? ≠ some '1' →
    imageOfLines (line :: lines) = imageOfLines lines)

/-! ### Memory -/

/-- R31: a read returns the byte last written at its address, a write changes no other cell and nothing else, and a cell
nothing has written since reset reads 0x00. -/
def Obligations.MemoryPrimitives : Prop :=
  (∀ (s : State) (a : Addr) (v : Byte),
    memRead a (memWrite a v s) = v ∧ SameMemoryExcept a s (memWrite a v s) ∧ SameRegs s (memWrite a v s) ∧
    (memWrite a v s).pc = s.pc ∧ (memWrite a v s).sp = s.sp ∧ (memWrite a v s).run = s.run ∧
    (memWrite a v s).status = s.status ∧ (memWrite a v s).out = s.out) ∧
  ∀ (regs : Vector Byte 8) (a : Addr), memRead a (State.resetWith regs) = 0x00#8

/-- Two memories in canonical form that read the same everywhere are the same data (the model's own form, log 12). -/
def Obligations.EqualMemoriesAreEqualData : Prop :=
  ∀ m n : Memory, m.wf → n.wf → (∀ a : Addr, m.read a = n.read a) → m = n

/-! ### The instructions: result and frame -/

/-- R90, LDI with a register that exists. The wrap of `pc` above 0xFF is D2 (log 5). -/
def Obligations.LdiLoadsTheImmediate : Prop :=
  ∀ (s : State) (ra imm : Byte) (a : RegIndex), ra.toNat = a.val →
    ∃ t, exec (.ldi ra imm) s = .next t ∧ readReg a t = imm ∧ SameRegsExcept a s t ∧
      t.pc.toNat = (s.pc.toNat + 3) % 256 ∧ SameMemory s t ∧ t.sp = s.sp ∧ t.run = s.run ∧ t.status = s.status ∧
      t.out = s.out

/-- R95, PRN with a register that exists. The wrap of `pc` above 0xFF is D2 (log 5). -/
def Obligations.PrnEmitsTheRegister : Prop :=
  ∀ (s : State) (ra : Byte) (a : RegIndex), ra.toNat = a.val →
    ∃ t, exec (.prn ra) s = .next t ∧ t.out = s.out ++ [readReg a s] ∧ SameRegs s t ∧
      t.pc.toNat = (s.pc.toNat + 2) % 256 ∧ SameMemory s t ∧ t.sp = s.sp ∧ t.run = s.run ∧ t.status = s.status

/-- R103, MUL with registers that exist, the same register twice among them: both reads see the old value. The wrap of
`pc` above 0xFF is D2 (log 5). -/
def Obligations.MulWritesTheProduct : Prop :=
  ∀ (s : State) (ra rb : Byte) (a b : RegIndex), ra.toNat = a.val → rb.toNat = b.val →
    ∃ t, exec (.mul ra rb) s = .next t ∧
      (readReg a t).toNat = ((readReg a s).toNat * (readReg b s).toNat) % 256 ∧ SameRegsExcept a s t ∧
      t.pc.toNat = (s.pc.toNat + 3) % 256 ∧ SameMemory s t ∧ t.sp = s.sp ∧ t.run = s.run ∧ t.status = s.status ∧
      t.out = s.out

/-- R110, HLT: one byte 0x01 whose followers play no part; it clears `run`, sets `Halted`, and writes nothing else; no
step follows and the exit status is 0; and no other opcode ends a run normally. -/
def Obligations.HltStopsTheLoop : Prop :=
  (∀ a b : Byte, decodeWord 0x01#8 a b = .ok .hlt) ∧
  (∀ s : State, ∃ t, exec .hlt s = .next t ∧ t.run = false ∧ t.status = .halted ∧ t.pc = s.pc ∧ SameRegs s t ∧
    SameMemory s t ∧ t.sp = s.sp ∧ t.out = s.out ∧ exitStatus t.status = some 0 ∧ ∃ f, step t = .fault f) ∧
  (∀ s t : State, step s = .next t → t.status = .halted → opcodeByte s = 0x01#8)

/-- R116, PUSH of a register that exists, for every `sp`: the store is at the old `sp`, 0x00 goes to 0xFF. The wrap of
`pc` above 0xFF is D2 (log 5). -/
def Obligations.PushStoresThenDecrements : Prop :=
  ∀ (s : State) (ra : Byte) (a : RegIndex), ra.toNat = a.val →
    ∃ t, exec (.push ra) s = .next t ∧ memRead (pushAddr s) t = readReg a s ∧ SameMemoryExcept (pushAddr s) s t ∧
      t.sp.toNat = (if s.sp.toNat = 0 then 255 else s.sp.toNat - 1) ∧ SameRegs s t ∧
      t.pc.toNat = (s.pc.toNat + 2) % 256 ∧ t.run = s.run ∧ t.status = s.status ∧ t.out = s.out

/-- R117, POP to a register that exists, with `sp` off the sentinel: the popped cell keeps its byte. The wrap of `sp`
above 0xFF is D3 (log 6), that of `pc` D2 (log 5). -/
def Obligations.PopIncrementsThenLoads : Prop :=
  ∀ (s : State) (ra : Byte) (a : RegIndex), ra.toNat = a.val → s.sp ≠ 0xF4#8 →
    ∃ t, exec (.pop ra) s = .next t ∧ readReg a t = memRead (popAddr s) s ∧
      (popAddr s).toNat = (s.sp.toNat + 1) % 256 ∧ t.sp = popAddr s ∧ SameRegsExcept a s t ∧ SameMemory s t ∧
      t.pc.toNat = (s.pc.toNat + 2) % 256 ∧ t.run = s.run ∧ t.status = s.status ∧ t.out = s.out

/-! ### Faults -/

/-- A register byte above 7 faults with the address and the byte, before any effect: in LDI, PRN, PUSH, in POP off the
sentinel, and in MUL for `operand_a` before `operand_b`. D5 (log 7), D6 (log 3), D14 (log 13). -/
def Obligations.RegisterByteAboveSevenFaults : Prop :=
  ∀ (s : State) (r q : Byte), 7 < r.toNat →
    exec (.ldi r q) s = .next { s with status := .faulted (.registerIndexFault s.pc r) } ∧
    exec (.prn r) s = .next { s with status := .faulted (.registerIndexFault s.pc r) } ∧
    exec (.push r) s = .next { s with status := .faulted (.registerIndexFault s.pc r) } ∧
    (s.sp ≠ 0xF4#8 → exec (.pop r) s = .next { s with status := .faulted (.registerIndexFault s.pc r) }) ∧
    exec (.mul r q) s = .next { s with status := .faulted (.registerIndexFault s.pc r) } ∧
    (q.toNat ≤ 7 → exec (.mul q r) s = .next { s with status := .faulted (.registerIndexFault s.pc r) })

/-- R118, R133: a step raises `StackEmpty` exactly when it executes a POP with `sp` equal to 0xF4, whatever its operand;
it records the address of the POP, moves neither `sp` nor a register, exits with 1 and says "stack is empty", the only
words fixed for any fault. -/
def Obligations.StackEmptyExactlyOnTheSentinel : Prop :=
  ∀ s t : State, step s = .next t →
    ((∃ p, t.status = .faulted (.stackEmpty p)) ↔ opcodeByte s = 0x46#8 ∧ s.sp = 0xF4#8) ∧
    (∀ p, t.status = .faulted (.stackEmpty p) → p = s.pc ∧ t.sp = s.sp ∧ SameRegs s t ∧
      exitStatus t.status = some 1 ∧ fixedPhrase (.stackEmpty p) = some "stack is empty") ∧
    (∀ k : FaultKind, fixedPhrase k ≠ none → ∃ p, k = .stackEmpty p)

/-- The `status` after a step, in the order of 60_exceptions section 2: decode error, empty stack, first register byte,
second register byte; else HLT halts and every other instruction goes on. The order past POP's own is D14 (log 13), the
wrap of the operands' addresses D2 (log 5). -/
def Obligations.StatusFollowsFaultPriority : Prop :=
  ∀ s t : State, step s = .next t →
    t.status =
      if opcodeByte s ∉ [0x82#8, 0x47#8, 0xA2#8, 0x01#8, 0x46#8, 0x45#8] then
        .faulted (.decodeError s.pc (opcodeByte s))
      else if opcodeByte s = 0x46#8 ∧ s.sp = 0xF4#8 then .faulted (.stackEmpty s.pc)
      else if opcodeByte s ≠ 0x01#8 ∧ 7 < (operandA s).toNat then .faulted (.registerIndexFault s.pc (operandA s))
      else if opcodeByte s = 0xA2#8 ∧ 7 < (operandB s).toNat then .faulted (.registerIndexFault s.pc (operandB s))
      else if opcodeByte s = 0x01#8 then .halted
      else .running

/-- Faults are precise: a step that ends in `Faulted` started running and wrote `status` alone (D6, log 3). -/
def Obligations.FaultsArePrecise : Prop :=
  ∀ (s t : State) (k : FaultKind), step s = .next t → t.status = .faulted k →
    s.status = .running ∧ t = { s with status := .faulted k }

/-- A step exists exactly while running: then it answers a next state, and a terminal state answers the Host stop that
names it. The absence of a step in a terminal state is D19 (log 4). -/
def Obligations.StepExactlyWhileRunning : Prop :=
  (∀ s : State, (∃ t, step s = .next t) ↔ s.status = .running) ∧
  (∀ s : State, s.status = .halted → step s = .fault .noStepHalted) ∧
  (∀ (s : State) (k : FaultKind), s.status = .faulted k → step s = .fault (.noStepFaulted k))

/-- R135: no step raises `AluDispatchError`, and no run reaches it, whatever is loaded. -/
def Obligations.AluDispatchErrorNeverRaised : Prop :=
  (∀ s t : State, step s = .next t → t.status ≠ .faulted .aluDispatchError) ∧
  ∀ (regs : Vector Byte 8) (src : ImageSource) (n : Nat),
    (runSteps n (loadSource src (State.resetWith regs))).status ≠ .faulted .aluDispatchError

/-! ### The step -/

/-- R71, R73: when the bytes at `pc` decode to an instruction, whatever its operands, the step of a running machine is
that instruction's meaning and nothing more. -/
def Obligations.StepRunsTheDecodedInstruction : Prop :=
  ∀ (s : State) (i : Instr), s.status = .running →
    decodeWord (memRead s.pc s) (memRead (s.pc + 1#8) s) (memRead (s.pc + 2#8) s) = .ok i → step s = exec i s

/-- The same from the encoder's side: memory holds the bytes of `i` from `pc` on, over the top of memory if need be (D2,
log 5). -/
def Obligations.StepRunsEncodedBytes : Prop :=
  ∀ (s : State) (i : Instr), s.status = .running →
    (∀ (k : Nat) (h : k < (encode i).length), memRead (s.pc + BitVec.ofNat 8 k) s = (encode i)[k]) →
    step s = exec i s

/-- An instruction placed at `pc` as the opcode table numbers it is the next one run, also across the top of memory, where
the wrap is D2 (log 5). That an instruction can be placed at any `pc` is the model's own choice (DESIGN CHOICE, log 17):
it stands for the host's load, which R26 has write from address 0x00 before the first step. -/
def Obligations.PlacedWordIsRunNext : Prop :=
  ∀ (s : State) (nbits w : Nat) (i : Instr), s.status = .running → decodeTableWord nbits w = some i →
    step (s.withFetchWord nbits w) = exec i (s.withFetchWord nbits w)

/-- The machine refines the pseudocode of the step and of the six instructions, faults and wraps included (D2, D3, D5, D6,
D14). -/
def Obligations.StepRefinesThePseudocode : Prop :=
  ∀ s : State,
    (match step s with
      | .next t => some (Reference.toRef t)
      | .fault _ => none
      | .refused _ => none) = Reference.refStep (Reference.toRef s)

/-- Self-modifying code is exact: a PUSH whose `sp` is the next opcode's address decides what is fetched next; and a PUSH
over its own bytes still stores the register its old operand named. The wrap of `pc + 1` and `pc + 2` above 0xFF is D2
(log 5). -/
def Obligations.PushedByteIsFetchedAsStored : Prop :=
  (∀ (s t : State) (ra : Byte) (a : RegIndex), ra.toNat = a.val → s.sp = s.pc + 2#8 → exec (.push ra) s = .next t →
    opcodeByte t = readReg a s) ∧
  (∀ (s : State) (a : RegIndex), s.status = .running → opcodeByte s = 0x45#8 → (operandA s).toNat = a.val →
    (s.sp = s.pc ∨ s.sp = s.pc + 1#8) → ∃ t, step s = .next t ∧ memRead s.sp t = readReg a s)

/-! ### What a step may change -/

/-- R18: `run` is true at reset, HLT clears it, nothing else writes it, no step depends on it, and once it is false, with
`status` linked to it as R19 says, the loop has ended. -/
def Obligations.RunFlagClearedByHltAlone : Prop :=
  (∀ (s t : State) (b : Bool), step s = .next t →
    step { s with run := b } = .next { t with run := if opcodeByte s = 0x01#8 then false else b }) ∧
  (∀ s t : State, StatusLink s → step s = .next t → t.run = false → ∃ f, step t = .fault f) ∧
  ∀ regs : Vector Byte 8, (State.resetWith regs).run = true

/-- The program counter table of 10_state section 2 (R14): +3, +2 or unchanged, and unchanged by a fault. The wrap is D2
(log 5). -/
def Obligations.PcMovesByTheTable : Prop :=
  ∀ s t : State, step s = .next t →
    (GoneWrong t → t.pc = s.pc) ∧
    (¬ GoneWrong t → t.pc.toNat =
      if opcodeByte s = 0x82#8 ∨ opcodeByte s = 0xA2#8 then (s.pc.toNat + 3) % 256
      else if opcodeByte s = 0x47#8 ∨ opcodeByte s = 0x46#8 ∨ opcodeByte s = 0x45#8 then (s.pc.toNat + 2) % 256
      else s.pc.toNat)

/-- PUSH is the only instruction that writes memory, and only the cell at its `sp` (R32, C2). -/
def Obligations.OnlyPushWritesMemory : Prop :=
  ∀ s t : State, step s = .next t →
    SameMemoryExcept s.sp s t ∧ (opcodeByte s ≠ 0x45#8 → t.mem = s.mem)

/-- A step writes at most the register its first operand names, and only in LDI, MUL and POP (R11). The wrap of
the operand's address above 0xFF is D2 (log 5). -/
def Obligations.RegistersWrittenByLdiMulPop : Prop :=
  ∀ (s t : State) (i : RegIndex), step s = .next t → readReg i t ≠ readReg i s →
    (operandA s).toNat = i.val ∧ (opcodeByte s = 0x82#8 ∨ opcodeByte s = 0xA2#8 ∨ opcodeByte s = 0x46#8)

/-- Only PUSH and POP move `sp`, by one each way (R16). The wrap upward is D3 (log 6). -/
def Obligations.StackPointerMovedByPushAndPop : Prop :=
  ∀ s t : State, step s = .next t → t.sp ≠ s.sp →
    (opcodeByte s = 0x45#8 ∧ t.sp.toNat = (s.sp.toNat + 255) % 256) ∨
      (opcodeByte s = 0x46#8 ∧ s.sp ≠ 0xF4#8 ∧ t.sp.toNat = (s.sp.toNat + 1) % 256)

/-- Output is never taken back: a step appends the byte of a completing PRN, or nothing (R27, R97). That a PRN whose
register byte is above 7 emits nothing is D5 (log 7), the wrap of its operand's address above 0xFF D2 (log 5). -/
def Obligations.OutputGrowsByPrnAlone : Prop :=
  ∀ s t : State, step s = .next t →
    (∀ a : RegIndex, opcodeByte s = 0x47#8 → (operandA s).toNat = a.val → t.out = s.out ++ [readReg a s]) ∧
    (opcodeByte s ≠ 0x47#8 ∨ 7 < (operandA s).toNat → t.out = s.out)

/-- LDI, PRN, MUL and HLT do not read `sp`: with another `sp` they do the same and leave that `sp` (R123). -/
def Obligations.OnlyPushAndPopSeeTheStackPointer : Prop :=
  ∀ (i : Instr) (s t : State) (v : Addr), i.opcode ≠ 0x45#8 → i.opcode ≠ 0x46#8 → exec i s = .next t →
    t.sp = s.sp ∧ exec i { s with sp := v } = .next { t with sp := v }

/-- Registers and output never steer the machine: two states that differ in them alone step to the same `pc`, `sp`, `run`
and `status` (R82). -/
def Obligations.RegistersNeverSteer : Prop :=
  ∀ (s t t' : State) (regs : Vector Byte 8) (out : List Byte), step s = .next t →
    step { s with x := regs, out := out } = .next t' →
    t'.pc = t.pc ∧ t'.sp = t.sp ∧ t'.run = t.run ∧ t'.status = t.status

/-! ### The stack -/

/-- R124: POP leaves memory as it was, the popped cell included, and a later PUSH at the same depth overwrites it. -/
def Obligations.PopLeavesTheCell : Prop :=
  ∀ (s t : State) (ra rb : Byte) (b : RegIndex), s.sp ≠ 0xF4#8 → ra.toNat < 8 → rb.toNat = b.val →
    exec (.pop ra) s = .next t →
    SameMemory s t ∧ ∃ u, exec (.push rb) t = .next u ∧ memRead (popAddr s) u = readReg b t

/-- The round-trip law of 45_stack section 3 (R119): PUSH then POP of one register restores every register and `sp`, for
every `sp` but 0xF5. At `sp` 0x00 the POP wraps `sp` above 0xFF, which is D3 (log 6). -/
def Obligations.PushThenPopRestores : Prop :=
  ∀ (s : State) (ra : Byte) (a : RegIndex), ra.toNat = a.val → s.sp ≠ 0xF5#8 →
    ∃ u, execAll [.push ra, .pop ra] s = .next u ∧ SameRegs s u ∧ u.sp = s.sp ∧ memRead s.sp u = readReg a s

/-- Sentinel aliasing (R122): a PUSH from 0xF5 makes the stack look empty, and the POP after it faults. The
state the fault leaves is D6 (log 3). -/
def Obligations.PushToTheSentinelLooksEmpty : Prop :=
  ∀ (s : State) (ra rb : Byte), ra.toNat < 8 → s.sp = 0xF5#8 →
    ∃ t, exec (.push ra) s = .next t ∧
      exec (.pop rb) t = .next { t with status := .faulted (.stackEmpty t.pc) }

/-- The walk of `sp` (R121): any number of pushes completes, moves `sp` down by that number modulo 256, and, for at most
256 of them, leaves the k-th byte in the k-th cell below the old `sp` and every other cell alone. -/
def Obligations.PushesWalkDown : Prop :=
  ∀ (rs : List RegIndex) (s : State),
    ∃ t, execAll (rs.map (fun r => Instr.push (regByte r))) s = .next t ∧
      t.sp = s.sp - BitVec.ofNat 8 rs.length ∧ SameRegs s t ∧ t.out = s.out ∧ t.status = s.status ∧
      (rs.length ≤ 256 → ∀ (k : Nat) (h : k < rs.length), memRead (s.sp - BitVec.ofNat 8 k) t = readReg rs[k] s) ∧
      (∀ a : Addr, (∀ k < rs.length, a ≠ s.sp - BitVec.ofNat 8 k) → memRead a t = memRead a s)

/-- LIFO (R119): as many pops as pushes, with `sp` off the sentinel after every push, return `sp` and give the bytes back
in reverse order. A register popped into twice keeps the later byte. The wrap of `sp` above 0xFF, which the pops meet
after pushes across 0x00, is D3 (log 6). -/
def Obligations.PopsReturnThePushesInReverse : Prop :=
  ∀ (rs qs : List RegIndex) (s : State) (hl : qs.length = rs.length),
    (∀ k, 1 ≤ k → k ≤ rs.length → s.sp - BitVec.ofNat 8 k ≠ 0xF4#8) →
    ∃ u, execAll (rs.map (fun r => Instr.push (regByte r)) ++ qs.map (fun q => Instr.pop (regByte q))) s = .next u ∧
      u.sp = s.sp ∧ (∀ i : RegIndex, i ∉ qs → readReg i u = readReg i s) ∧
      ∀ (j : Nat) (h : j < qs.length), (∀ (l : Nat) (h' : l < qs.length), j < l → qs[l] ≠ qs[j]) →
        readReg qs[j] u = readReg (rs[rs.length - 1 - j]'(by omega)) s

/-! ### Invariant and termination -/

/-- Every step keeps the invariant: memory canonical, `run` linked to `status` (R19), and a terminal state whose `pc`
still addresses the instruction that halted or faulted (R13; D6, log 3). -/
def Obligations.StepKeepsTheInvariant : Prop :=
  ∀ s t : State, Inv s → step s = .next t → Inv t

/-- The invariant holds at reset, and after every load, successful or not, for every `REG_INIT`. -/
def Obligations.ResetAndLoadsSatisfyTheInvariant : Prop :=
  Inv State.reset ∧ ∀ (regs : Vector Byte 8) (src : ImageSource), Inv (loadSource src (State.resetWith regs))

/-- Wrap-free, as 10_state section 2 defines it: the bytes of the instruction lie at or below 0xFF and `pc` does not wrap,
so that a wrap-free step advances by its `advanceOf` without `mod 256`, whatever D2 (log 5) says of the top of memory; a
step that faults or halts advances by nothing. -/
def Obligations.WrapFreeStepsNeverWrap : Prop :=
  ∀ s t : State, step s = .next t →
    (WrapFree s ↔ s.pc.toNat ≤ t.pc.toNat ∧
      s.pc.toNat + (if opcodeByte s = 0x82#8 ∨ opcodeByte s = 0xA2#8 then 2
        else if opcodeByte s = 0x47#8 ∨ opcodeByte s = 0x46#8 ∨ opcodeByte s = 0x45#8 then 1 else 0) ≤ 255) ∧
    (WrapFree s → t.pc.toNat = s.pc.toNat + advanceOf s) ∧
    (Ended t → advanceOf s = 0)

/-- A wrap-free run from address 0 ends within 128 steps (70_reset section 3, R169; wrap-free as in R15). -/
def Obligations.WrapFreeRunEndsWithin128Steps : Prop :=
  ∀ s : State, s.pc = 0x00#8 → (∀ k < 128, WrapFree (runSteps k s)) → Ended (runSteps 128 s)

/-! ### The ALU -/

/-- R100, R102: the two operations and no other, each the true result modulo 256; `AluExec` reads both registers, writes
the first, and touches nothing else. -/
def Obligations.AluComputesModulo256 : Prop :=
  (∀ op : AluOp, op = .add ∨ op = .mul) ∧
  (∀ a b : Byte, (alu .add a b).toNat = (a.toNat + b.toNat) % 256 ∧ (alu .mul a b).toNat = (a.toNat * b.toNat) % 256) ∧
  (∀ (op : AluOp) (a b : RegIndex) (s : State),
    readReg a (aluExec op a b s) = alu op (readReg a s) (readReg b s) ∧ SameRegsExcept a s (aluExec op a b s) ∧
    SameMemory s (aluExec op a b s) ∧ (aluExec op a b s).pc = s.pc ∧ (aluExec op a b s).sp = s.sp ∧
    (aluExec op a b s).run = s.run ∧ (aluExec op a b s).status = s.status ∧ (aluExec op a b s).out = s.out)

/-- The laws of 43_alu section 3 (R105): commutative, associative, identities, zero, and multiplication by a power of two
as a shift that is 0 from 8 on. -/
def Obligations.AluLaws : Prop :=
  (∀ (op : AluOp) (a b : Byte), alu op a b = alu op b a) ∧
  (∀ (op : AluOp) (a b c : Byte), alu op (alu op a b) c = alu op a (alu op b c)) ∧
  (∀ a : Byte, alu .add a 0 = a ∧ alu .mul a 1 = a ∧ alu .mul a 0 = 0) ∧
  (∀ (a : Byte) (k : Nat), alu .mul a (BitVec.ofNat 8 (2 ^ k)) = a <<< k ∧
    (8 ≤ k → alu .mul a (BitVec.ofNat 8 (2 ^ k)) = 0))

/-! ### The host's side -/

/-- R140: `Halted` gives exit status 0, `Faulted` of any kind gives 1, and a machine that has not ended gives none. -/
def Obligations.ExitStatusOfAnEndedRun : Prop :=
  ∀ st : Status,
    exitStatus st = (if st = .running then none else if st = .halted then some 0 else some 1)

/-- The console text (42_output, R96): each byte as its decimal numeral, one to three digits without a leading zero, and a
newline, in order; 72 is shown as `72`. The shape of the numeral is D10 (log 14). -/
def Obligations.ConsoleShowsDecimalLines : Prop :=
  (∀ v : Byte, (decimal v).foldl (fun n c => 10 * n + (c.toNat - '0'.toNat)) 0 = v.toNat ∧
    (∀ c ∈ decimal v, '0'.toNat ≤ c.toNat ∧ c.toNat ≤ '9'.toNat) ∧ 1 ≤ (decimal v).length ∧ (decimal v).length ≤ 3 ∧
    ((decimal v).head? = some '0' → v = 0)) ∧
  (∀ us vs : List Byte, consoleText (us ++ vs) = consoleText us ++ consoleText vs) ∧
  (∀ v : Byte, consoleText [v] = decimal v ++ ['\n']) ∧ consoleText [72#8] = ['7', '2', '\n']
end

