-- ==== Sys2Proof/Laws/Decode.lean ====
section
/-! SUPPORT. The opcode map read both ways (30_encoding R53, R56). -/

namespace Sys2Proof

/-- The six bound bytes with what each selects. -/
theorem opcodeOf_some {b : Byte} {o : Opcode} (h : opcodeOf b = some o) :
    (b = 0x82#8 ∧ o = .ldi) ∨ (b = 0x47#8 ∧ o = .prn) ∨ (b = 0xA2#8 ∧ o = .mul) ∨ (b = 0x01#8 ∧ o = .hlt) ∨
      (b = 0x46#8 ∧ o = .pop) ∨ (b = 0x45#8 ∧ o = .push) := by
  simp only [opcodeOf] at h
  split_ifs at h <;> simp_all

/-- The unbound bytes are the others. -/
theorem opcodeOf_none {b : Byte} :
    opcodeOf b = none ↔ b ∉ [0x82#8, 0x47#8, 0xA2#8, 0x01#8, 0x46#8, 0x45#8] := by
  simp only [opcodeOf]
  split_ifs <;> simp_all

end Sys2Proof
end

