-- ==== Sys2Proof/Laws/Memory.lean ====
section
/-! SUPPORT. What the memory primitives do (20_memory R31): a read after a write, on every list of cells, and the
canonical form, which every write keeps. -/

namespace Sys2Proof.Machine

@[simp] theorem Memory.cellAt_nil (a : Nat) : Memory.cellAt [] a = Config.memInit := rfl

@[simp] theorem Memory.read_nil (a : Addr) : Memory.read [] a = Config.memInit := rfl

theorem Memory.cellAt_erase (m : Memory) (a b : Nat) :
    Memory.cellAt (Memory.erase m a) b = if b = a then Config.memInit else Memory.cellAt m b := by
  induction m with
  | nil => simp [Memory.erase]
  | cons c m ih =>
    obtain ⟨k, v⟩ := c
    simp only [Memory.erase] at ih ⊢
    by_cases hk : k = a
    · subst hk
      simp only [ne_eq, List.filter_cons, not_true_eq_false, decide_false, Bool.false_eq_true, if_false, ih,
        Memory.cellAt]
      by_cases hb : b = k
      · simp [hb]
      · simp [hb, Ne.symm hb]
    · simp only [ne_eq, List.filter_cons, hk, not_false_eq_true, decide_true, if_true, Memory.cellAt, ih]
      by_cases hb : k = b
      · subst hb; simp [hk]
      · simp [hb]

theorem Memory.cellAt_insertCell (c : Host.Cell) (m : Memory) (b : Nat) (hm : Memory.cellAt m c.1 = Config.memInit)
    (hc : ∀ d ∈ m, d.1 ≠ c.1) :
    Memory.cellAt (Memory.insertCell c m) b = if b = c.1 then c.2 else Memory.cellAt m b := by
  induction m with
  | nil => obtain ⟨k, v⟩ := c; simp [Memory.insertCell, Memory.cellAt, eq_comm]
  | cons d m ih =>
    obtain ⟨k, v⟩ := c
    obtain ⟨l, w⟩ := d
    have hl : l ≠ k := hc (l, w) (by simp)
    have hm' : Memory.cellAt m k = Config.memInit := by simpa [Memory.cellAt, hl] using hm
    have ih' := ih hm' (fun d hd => hc d (by simp [hd]))
    simp only [Memory.insertCell]
    split
    · simp [Memory.cellAt, eq_comm]
    · simp only [Memory.cellAt, ih']
      by_cases hb : l = b
      · subst hb; simp [hl]
      · simp [hb]

theorem Memory.not_mem_erase (m : Memory) (a : Nat) : ∀ d ∈ Memory.erase m a, d.1 ≠ a := by
  intro d hd
  simpa using (List.mem_filter.1 hd).2

/-- A read after a write: the byte written at its address, every other byte as before. -/
theorem Memory.read_write (m : Memory) (a b : Addr) (v : Byte) :
    (m.write a v).read b = if b = a then v else m.read b := by
  have hab : b.toNat = a.toNat ↔ b = a := BitVec.toNat_inj
  simp only [Memory.write, Memory.read]
  split
  · rename_i hv
    rw [Memory.cellAt_erase]
    by_cases h : b = a <;> simp [hab, h, hv]
  · rw [Memory.cellAt_insertCell (a.toNat, v) _ _ (by simp [Memory.cellAt_erase]) (Memory.not_mem_erase m _),
      Memory.cellAt_erase]
    by_cases h : b = a <;> simp [hab, h]

@[simp] theorem Memory.read_write_same (m : Memory) (a : Addr) (v : Byte) : (m.write a v).read a = v := by
  simp [Memory.read_write]

theorem Memory.read_write_other (m : Memory) {a b : Addr} (v : Byte) (h : b ≠ a) :
    (m.write a v).read b = m.read b := by
  simp [Memory.read_write, h]

theorem Memory.wf_nil : Memory.wf [] := by simp [Memory.wf]

theorem Memory.wf_erase {m : Memory} (h : m.wf) (a : Nat) : (Memory.erase m a).wf :=
  ⟨h.1.filter _, fun c hc => h.2 c (List.mem_filter.1 hc).1⟩

theorem Memory.mem_insertCell {c d : Host.Cell} {m : Memory} :
    d ∈ Memory.insertCell c m ↔ d = c ∨ d ∈ m := by
  induction m with
  | nil => simp [Memory.insertCell]
  | cons e m ih =>
    simp only [Memory.insertCell]
    split
    · simp
    · simp only [List.mem_cons, ih]; tauto

theorem Memory.wf_insertCell {c : Host.Cell} {m : Memory} (h : m.wf) (hc : ∀ d ∈ m, d.1 ≠ c.1)
    (hlt : c.1 < Config.memCells) (hv : c.2 ≠ Config.memInit) : (Memory.insertCell c m).wf := by
  refine ⟨?_, fun d hd => ?_⟩
  · induction m with
    | nil => simp [Memory.insertCell]
    | cons d m ih =>
      have hp := List.pairwise_cons.1 h.1
      simp only [Memory.insertCell]
      split
      · rename_i hcd
        refine List.pairwise_cons.2 ⟨fun e he => ?_, h.1⟩
        rcases List.mem_cons.1 he with rfl | he
        · exact hcd
        · exact lt_trans hcd (hp.1 e he)
      · rename_i hcd
        have hdc : d.1 < c.1 := lt_of_le_of_ne (not_lt.1 hcd) (hc d (by simp))
        refine List.pairwise_cons.2 ⟨fun e he => ?_, ih ⟨hp.2, fun e he => h.2 e (by simp [he])⟩
          (fun e he => hc e (by simp [he]))⟩
        rcases Memory.mem_insertCell.1 he with rfl | he
        · exact hdc
        · exact hp.1 e he
  · rcases Memory.mem_insertCell.1 hd with rfl | hd
    · exact ⟨hlt, hv⟩
    · exact h.2 d hd

/-- Every write keeps the canonical form. -/
theorem Memory.wf_write {m : Memory} (h : m.wf) (a : Addr) (v : Byte) : (m.write a v).wf := by
  simp only [Memory.write]
  split
  · exact Memory.wf_erase h _
  · rename_i hv
    exact Memory.wf_insertCell (Memory.wf_erase h _) (Memory.not_mem_erase m _) (BitVec.isLt a) hv

/-- So does every load. -/
theorem Memory.wf_writeList {m : Memory} (h : m.wf) (a : Addr) (vs : List Byte) : (m.writeList a vs).wf := by
  induction vs generalizing m a with
  | nil => exact h
  | cons v vs ih => exact ih (Memory.wf_write h a v) _

end Sys2Proof.Machine
end

