-- ==== Sys2Proof/Laws/State.lean ====
section
/-! SUPPORT. One lemma per field per update of the state, true by unfolding once, so that no later proof unfolds an
update. -/

namespace Sys2Proof.Machine

@[simp] theorem writeReg_mem (i : RegIndex) (v : Byte) (s : State) : (writeReg i v s).mem = s.mem := rfl
@[simp] theorem writeReg_x (i : RegIndex) (v : Byte) (s : State) : (writeReg i v s).x = s.x.set i v := rfl
@[simp] theorem writeReg_pc (i : RegIndex) (v : Byte) (s : State) : (writeReg i v s).pc = s.pc := rfl
@[simp] theorem writeReg_sp (i : RegIndex) (v : Byte) (s : State) : (writeReg i v s).sp = s.sp := rfl
@[simp] theorem writeReg_run (i : RegIndex) (v : Byte) (s : State) : (writeReg i v s).run = s.run := rfl
@[simp] theorem writeReg_status (i : RegIndex) (v : Byte) (s : State) : (writeReg i v s).status = s.status := rfl
@[simp] theorem writeReg_out (i : RegIndex) (v : Byte) (s : State) : (writeReg i v s).out = s.out := rfl

@[simp] theorem memWrite_mem (a : Addr) (v : Byte) (s : State) : (memWrite a v s).mem = s.mem.write a v := rfl
@[simp] theorem memWrite_x (a : Addr) (v : Byte) (s : State) : (memWrite a v s).x = s.x := rfl
@[simp] theorem memWrite_pc (a : Addr) (v : Byte) (s : State) : (memWrite a v s).pc = s.pc := rfl
@[simp] theorem memWrite_sp (a : Addr) (v : Byte) (s : State) : (memWrite a v s).sp = s.sp := rfl
@[simp] theorem memWrite_run (a : Addr) (v : Byte) (s : State) : (memWrite a v s).run = s.run := rfl
@[simp] theorem memWrite_status (a : Addr) (v : Byte) (s : State) : (memWrite a v s).status = s.status := rfl
@[simp] theorem memWrite_out (a : Addr) (v : Byte) (s : State) : (memWrite a v s).out = s.out := rfl

@[simp] theorem advancePc_mem (n : Nat) (s : State) : (advancePc n s).mem = s.mem := rfl
@[simp] theorem advancePc_x (n : Nat) (s : State) : (advancePc n s).x = s.x := rfl
@[simp] theorem advancePc_pc (n : Nat) (s : State) : (advancePc n s).pc = s.pc + BitVec.ofNat 8 n := rfl
@[simp] theorem advancePc_sp (n : Nat) (s : State) : (advancePc n s).sp = s.sp := rfl
@[simp] theorem advancePc_run (n : Nat) (s : State) : (advancePc n s).run = s.run := rfl
@[simp] theorem advancePc_status (n : Nat) (s : State) : (advancePc n s).status = s.status := rfl
@[simp] theorem advancePc_out (n : Nat) (s : State) : (advancePc n s).out = s.out := rfl

@[simp] theorem emit_mem (v : Byte) (s : State) : (emit v s).mem = s.mem := rfl
@[simp] theorem emit_x (v : Byte) (s : State) : (emit v s).x = s.x := rfl
@[simp] theorem emit_pc (v : Byte) (s : State) : (emit v s).pc = s.pc := rfl
@[simp] theorem emit_sp (v : Byte) (s : State) : (emit v s).sp = s.sp := rfl
@[simp] theorem emit_run (v : Byte) (s : State) : (emit v s).run = s.run := rfl
@[simp] theorem emit_status (v : Byte) (s : State) : (emit v s).status = s.status := rfl
@[simp] theorem emit_out (v : Byte) (s : State) : (emit v s).out = s.out ++ [v] := rfl

@[simp] theorem enterFault_mem (k : FaultKind) (s : State) : (enterFault k s).mem = s.mem := rfl
@[simp] theorem enterFault_x (k : FaultKind) (s : State) : (enterFault k s).x = s.x := rfl
@[simp] theorem enterFault_pc (k : FaultKind) (s : State) : (enterFault k s).pc = s.pc := rfl
@[simp] theorem enterFault_sp (k : FaultKind) (s : State) : (enterFault k s).sp = s.sp := rfl
@[simp] theorem enterFault_run (k : FaultKind) (s : State) : (enterFault k s).run = s.run := rfl
@[simp] theorem enterFault_status (k : FaultKind) (s : State) : (enterFault k s).status = .faulted k := rfl
@[simp] theorem enterFault_out (k : FaultKind) (s : State) : (enterFault k s).out = s.out := rfl

@[simp] theorem stopLoop_mem (s : State) : (stopLoop s).mem = s.mem := rfl
@[simp] theorem stopLoop_x (s : State) : (stopLoop s).x = s.x := rfl
@[simp] theorem stopLoop_pc (s : State) : (stopLoop s).pc = s.pc := rfl
@[simp] theorem stopLoop_sp (s : State) : (stopLoop s).sp = s.sp := rfl
@[simp] theorem stopLoop_run (s : State) : (stopLoop s).run = false := rfl
@[simp] theorem stopLoop_status (s : State) : (stopLoop s).status = .halted := rfl
@[simp] theorem stopLoop_out (s : State) : (stopLoop s).out = s.out := rfl

@[simp] theorem aluExec_mem (op : AluOp) (a b : RegIndex) (s : State) : (aluExec op a b s).mem = s.mem := rfl
@[simp] theorem aluExec_x (op : AluOp) (a b : RegIndex) (s : State) : (aluExec op a b s).x = s.x.set a (alu op (readReg a s) (readReg b s)) := rfl
@[simp] theorem aluExec_pc (op : AluOp) (a b : RegIndex) (s : State) : (aluExec op a b s).pc = s.pc := rfl
@[simp] theorem aluExec_sp (op : AluOp) (a b : RegIndex) (s : State) : (aluExec op a b s).sp = s.sp := rfl
@[simp] theorem aluExec_run (op : AluOp) (a b : RegIndex) (s : State) : (aluExec op a b s).run = s.run := rfl
@[simp] theorem aluExec_status (op : AluOp) (a b : RegIndex) (s : State) : (aluExec op a b s).status = s.status := rfl
@[simp] theorem aluExec_out (op : AluOp) (a b : RegIndex) (s : State) : (aluExec op a b s).out = s.out := rfl

@[simp] theorem pushByte_mem (v : Byte) (s : State) : (pushByte v s).mem = s.mem.write s.sp v := rfl
@[simp] theorem pushByte_x (v : Byte) (s : State) : (pushByte v s).x = s.x := rfl
@[simp] theorem pushByte_pc (v : Byte) (s : State) : (pushByte v s).pc = s.pc := rfl
@[simp] theorem pushByte_sp (v : Byte) (s : State) : (pushByte v s).sp = s.sp - 1#8 := rfl
@[simp] theorem pushByte_run (v : Byte) (s : State) : (pushByte v s).run = s.run := rfl
@[simp] theorem pushByte_status (v : Byte) (s : State) : (pushByte v s).status = s.status := rfl
@[simp] theorem pushByte_out (v : Byte) (s : State) : (pushByte v s).out = s.out := rfl

@[simp] theorem popByte_mem (a : RegIndex) (s : State) : (popByte a s).mem = s.mem := rfl
@[simp] theorem popByte_x (a : RegIndex) (s : State) : (popByte a s).x = s.x.set a (memRead (popAddr s) s) := rfl
@[simp] theorem popByte_pc (a : RegIndex) (s : State) : (popByte a s).pc = s.pc := rfl
@[simp] theorem popByte_sp (a : RegIndex) (s : State) : (popByte a s).sp = s.sp + 1#8 := rfl
@[simp] theorem popByte_run (a : RegIndex) (s : State) : (popByte a s).run = s.run := rfl
@[simp] theorem popByte_status (a : RegIndex) (s : State) : (popByte a s).status = s.status := rfl
@[simp] theorem popByte_out (a : RegIndex) (s : State) : (popByte a s).out = s.out := rfl

@[simp] theorem placeAtPc_mem (s : State) (n w : Nat) : (placeAtPc s n w).mem = Memory.writeList s.mem s.pc (tableBytes n w) := rfl
@[simp] theorem placeAtPc_x (s : State) (n w : Nat) : (placeAtPc s n w).x = s.x := rfl
@[simp] theorem placeAtPc_pc (s : State) (n w : Nat) : (placeAtPc s n w).pc = s.pc := rfl
@[simp] theorem placeAtPc_sp (s : State) (n w : Nat) : (placeAtPc s n w).sp = s.sp := rfl
@[simp] theorem placeAtPc_run (s : State) (n w : Nat) : (placeAtPc s n w).run = s.run := rfl
@[simp] theorem placeAtPc_status (s : State) (n w : Nat) : (placeAtPc s n w).status = s.status := rfl
@[simp] theorem placeAtPc_out (s : State) (n w : Nat) : (placeAtPc s n w).out = s.out := rfl

@[simp] theorem resetWith_mem (r : Vector Byte 8) : (State.resetWith r).mem = [] := rfl
@[simp] theorem resetWith_x (r : Vector Byte 8) : (State.resetWith r).x = r := rfl
@[simp] theorem resetWith_pc (r : Vector Byte 8) : (State.resetWith r).pc = 0x00#8 := rfl
@[simp] theorem resetWith_sp (r : Vector Byte 8) : (State.resetWith r).sp = 0xF4#8 := rfl
@[simp] theorem resetWith_run (r : Vector Byte 8) : (State.resetWith r).run = true := rfl
@[simp] theorem resetWith_status (r : Vector Byte 8) : (State.resetWith r).status = .running := rfl
@[simp] theorem resetWith_out (r : Vector Byte 8) : (State.resetWith r).out = [] := rfl

end Sys2Proof.Machine
end

