-- ==== Sys2Proof/Laws/Ops.lean ====
section
/-! SUPPORT. What each shared operation does, said once: registers, memory as the state holds it, the register check,
the stack controller. -/

namespace Sys2Proof.Machine

/-- A register read after a register write. -/
theorem readReg_writeReg (i j : RegIndex) (v : Byte) (s : State) :
    readReg j (writeReg i v s) = if j = i then v else readReg j s := by
  simp only [readReg, writeReg, Fin.getElem_fin, Vector.getElem_set]
  by_cases h : j = i
  · simp [h]
  · have hv : (i : Nat) ≠ j := fun h' => h (Fin.ext h'.symm)
    simp [h, hv]

@[simp] theorem readReg_writeReg_same (i : RegIndex) (v : Byte) (s : State) : readReg i (writeReg i v s) = v := by
  simp [readReg_writeReg]

@[simp] theorem readReg_advancePc (i : RegIndex) (n : Nat) (s : State) : readReg i (advancePc n s) = readReg i s := rfl
@[simp] theorem readReg_memWrite (i : RegIndex) (a : Addr) (v : Byte) (s : State) :
    readReg i (memWrite a v s) = readReg i s := rfl
@[simp] theorem readReg_emit (i : RegIndex) (v : Byte) (s : State) : readReg i (emit v s) = readReg i s := rfl
@[simp] theorem readReg_enterFault (i : RegIndex) (k : FaultKind) (s : State) :
    readReg i (enterFault k s) = readReg i s := rfl
@[simp] theorem readReg_stopLoop (i : RegIndex) (s : State) : readReg i (stopLoop s) = readReg i s := rfl
@[simp] theorem readReg_pushByte (i : RegIndex) (v : Byte) (s : State) : readReg i (pushByte v s) = readReg i s := rfl

/-- The register file after a POP's load. -/
theorem readReg_popByte (i j : RegIndex) (s : State) :
    readReg j (popByte i s) = if j = i then memRead (s.sp + 1#8) s else readReg j s :=
  readReg_writeReg i j _ s

/-- The register file after an ALU operation. -/
theorem readReg_aluExec (op : AluOp) (a b j : RegIndex) (s : State) :
    readReg j (aluExec op a b s) = if j = a then alu op (readReg a s) (readReg b s) else readReg j s :=
  readReg_writeReg a j _ s

/-- A memory read after a memory write. -/
theorem memRead_memWrite (a b : Addr) (v : Byte) (s : State) :
    memRead b (memWrite a v s) = if b = a then v else memRead b s :=
  Memory.read_write s.mem a b v

@[simp] theorem memRead_writeReg (a : Addr) (i : RegIndex) (v : Byte) (s : State) :
    memRead a (writeReg i v s) = memRead a s := rfl
@[simp] theorem memRead_advancePc (a : Addr) (n : Nat) (s : State) : memRead a (advancePc n s) = memRead a s := rfl
@[simp] theorem memRead_emit (a : Addr) (v : Byte) (s : State) : memRead a (emit v s) = memRead a s := rfl
@[simp] theorem memRead_enterFault (a : Addr) (k : FaultKind) (s : State) :
    memRead a (enterFault k s) = memRead a s := rfl
@[simp] theorem memRead_stopLoop (a : Addr) (s : State) : memRead a (stopLoop s) = memRead a s := rfl
@[simp] theorem memRead_aluExec (a : Addr) (op : AluOp) (i j : RegIndex) (s : State) :
    memRead a (aluExec op i j s) = memRead a s := rfl
@[simp] theorem memRead_popByte (a : Addr) (i : RegIndex) (s : State) : memRead a (popByte i s) = memRead a s := rfl

/-- Memory after a PUSH's store: the one byte at the old `sp`. -/
theorem memRead_pushByte (a : Addr) (v : Byte) (s : State) :
    memRead a (pushByte v s) = if a = s.sp then v else memRead a s :=
  Memory.read_write s.mem s.sp a v

/-- A register byte that names a register lets the instruction go on. -/
theorem checkReg_ok {i : Byte} (h : i.toNat < 8) (s : State) (k : RegIndex → Result) :
    checkReg i s k = k ⟨i.toNat, h⟩ := by
  simp [checkReg, h]

/-- A register byte above 7 faults. -/
theorem checkReg_bad {i : Byte} (h : 8 ≤ i.toNat) (s : State) (k : RegIndex → Result) :
    checkReg i s k = .next (enterFault (.registerIndexFault s.pc i) s) := by
  simp [checkReg, raise, not_lt.2 h]

/-- Everything the register check can do. -/
theorem checkReg_next {i : Byte} {s t : State} {k : RegIndex → Result} (h : checkReg i s k = .next t) :
    (∃ hi : i.toNat < 8, k ⟨i.toNat, hi⟩ = .next t) ∨
      (8 ≤ i.toNat ∧ t = enterFault (.registerIndexFault s.pc i) s) := by
  by_cases hi : i.toNat < 8
  · exact .inl ⟨hi, by rwa [checkReg_ok hi] at h⟩
  · rw [checkReg_bad (not_lt.1 hi)] at h
    exact .inr ⟨not_lt.1 hi, by injection h with h; exact h.symm⟩

/-- The empty-stack test is the equality with the sentinel. -/
theorem stackIsEmpty_iff (s : State) : stackIsEmpty s = true ↔ s.sp = Config.spInit := by
  simp [stackIsEmpty]

end Sys2Proof.Machine
end

