-- ==== Sys2Proof/Laws/Step.lean ====
section
/-! SUPPORT. What an instruction and a step can do, said once each: an inversion lemma per instruction and one for the
step, from which later proofs take their cases. -/

namespace Sys2Proof.Machine

theorem next_inj {s t : State} (h : (Host.Outcome.next s : Result) = .next t) : t = s := by
  injection h with h; exact h.symm

/-- LDI with a register that exists. -/
theorem execLdi_ok {ra imm : Byte} (h : ra.toNat < 8) (s : State) :
    execLdi ra imm s = .next (advancePc 3 (writeReg ⟨ra.toNat, h⟩ imm s)) := checkReg_ok h s _

/-- PRN with a register that exists. -/
theorem execPrn_ok {ra : Byte} (h : ra.toNat < 8) (s : State) :
    execPrn ra s = .next (advancePc 2 (emit (readReg ⟨ra.toNat, h⟩ s) s)) := checkReg_ok h s _

/-- MUL with registers that exist. -/
theorem execMul_ok {ra rb : Byte} (ha : ra.toNat < 8) (hb : rb.toNat < 8) (s : State) :
    execMul ra rb s = .next (advancePc 3 (aluExec .mul ⟨ra.toNat, ha⟩ ⟨rb.toNat, hb⟩ s)) :=
  (checkReg_ok ha s _).trans (checkReg_ok hb s _)

/-- PUSH of a register that exists. -/
theorem execPush_ok {ra : Byte} (h : ra.toNat < 8) (s : State) :
    execPush ra s = .next (advancePc 2 (pushByte (readReg ⟨ra.toNat, h⟩ s) s)) := checkReg_ok h s _

/-- POP off the sentinel is the register check and then the load. -/
theorem execPop_off {ra : Byte} {s : State} (hs : s.sp ≠ Config.spInit) :
    execPop ra s = checkReg ra s fun a => .next (advancePc 2 (popByte a s)) := by
  simp only [execPop]
  exact if_neg (fun h => hs ((stackIsEmpty_iff s).1 h))

/-- POP to a register that exists, off the sentinel. -/
theorem execPop_ok {ra : Byte} (h : ra.toNat < 8) {s : State} (hs : s.sp ≠ Config.spInit) :
    execPop ra s = .next (advancePc 2 (popByte ⟨ra.toNat, h⟩ s)) :=
  (execPop_off hs).trans (checkReg_ok h s _)

/-- POP on the sentinel. -/
theorem execPop_empty {ra : Byte} {s : State} (hs : s.sp = Config.spInit) :
    execPop ra s = .next (enterFault (.stackEmpty s.pc) s) := by
  simp only [execPop]
  exact if_pos ((stackIsEmpty_iff s).2 hs)

/-- LDI with a register byte above 7. -/
theorem execLdi_bad {ra imm : Byte} (h : 8 ≤ ra.toNat) (s : State) :
    execLdi ra imm s = .next (enterFault (.registerIndexFault s.pc ra) s) := checkReg_bad h s _

/-- PRN with a register byte above 7. -/
theorem execPrn_bad {ra : Byte} (h : 8 ≤ ra.toNat) (s : State) :
    execPrn ra s = .next (enterFault (.registerIndexFault s.pc ra) s) := checkReg_bad h s _

/-- MUL with a first register byte above 7. -/
theorem execMul_bad {ra rb : Byte} (h : 8 ≤ ra.toNat) (s : State) :
    execMul ra rb s = .next (enterFault (.registerIndexFault s.pc ra) s) := checkReg_bad h s _

/-- MUL with only its second register byte above 7. -/
theorem execMul_bad_second {ra rb : Byte} (ha : ra.toNat < 8) (h : 8 ≤ rb.toNat) (s : State) :
    execMul ra rb s = .next (enterFault (.registerIndexFault s.pc rb) s) :=
  (checkReg_ok ha s _).trans (checkReg_bad h s _)

/-- PUSH with a register byte above 7. -/
theorem execPush_bad {ra : Byte} (h : 8 ≤ ra.toNat) (s : State) :
    execPush ra s = .next (enterFault (.registerIndexFault s.pc ra) s) := checkReg_bad h s _

/-- POP with a register byte above 7, off the sentinel. -/
theorem execPop_bad {ra : Byte} (h : 8 ≤ ra.toNat) {s : State} (hs : s.sp ≠ Config.spInit) :
    execPop ra s = .next (enterFault (.registerIndexFault s.pc ra) s) :=
  (execPop_off hs).trans (checkReg_bad h s _)

/-- Everything LDI can do. -/
theorem execLdi_next {ra imm : Byte} {s t : State} (h : execLdi ra imm s = .next t) :
    (∃ hr : ra.toNat < 8, t = advancePc 3 (writeReg ⟨ra.toNat, hr⟩ imm s)) ∨
      (8 ≤ ra.toNat ∧ t = enterFault (.registerIndexFault s.pc ra) s) := by
  rcases checkReg_next h with ⟨hr, h⟩ | h
  · exact .inl ⟨hr, next_inj h⟩
  · exact .inr h

/-- Everything PRN can do. -/
theorem execPrn_next {ra : Byte} {s t : State} (h : execPrn ra s = .next t) :
    (∃ hr : ra.toNat < 8, t = advancePc 2 (emit (readReg ⟨ra.toNat, hr⟩ s) s)) ∨
      (8 ≤ ra.toNat ∧ t = enterFault (.registerIndexFault s.pc ra) s) := by
  rcases checkReg_next h with ⟨hr, h⟩ | h
  · exact .inl ⟨hr, next_inj h⟩
  · exact .inr h

/-- Everything MUL can do. -/
theorem execMul_next {ra rb : Byte} {s t : State} (h : execMul ra rb s = .next t) :
    (∃ (ha : ra.toNat < 8) (hb : rb.toNat < 8),
        t = advancePc 3 (aluExec .mul ⟨ra.toNat, ha⟩ ⟨rb.toNat, hb⟩ s)) ∨
      (8 ≤ ra.toNat ∧ t = enterFault (.registerIndexFault s.pc ra) s) ∨
      (ra.toNat < 8 ∧ 8 ≤ rb.toNat ∧ t = enterFault (.registerIndexFault s.pc rb) s) := by
  rcases checkReg_next h with ⟨ha, h⟩ | h
  · rcases checkReg_next h with ⟨hb, h⟩ | h
    · exact .inl ⟨ha, hb, next_inj h⟩
    · exact .inr (.inr ⟨ha, h⟩)
  · exact .inr (.inl h)

/-- Everything HLT can do. -/
theorem execHlt_next {s t : State} (h : execHlt s = .next t) : t = stopLoop s := next_inj h

/-- Everything PUSH can do. -/
theorem execPush_next {ra : Byte} {s t : State} (h : execPush ra s = .next t) :
    (∃ hr : ra.toNat < 8, t = advancePc 2 (pushByte (readReg ⟨ra.toNat, hr⟩ s) s)) ∨
      (8 ≤ ra.toNat ∧ t = enterFault (.registerIndexFault s.pc ra) s) := by
  rcases checkReg_next h with ⟨hr, h⟩ | h
  · exact .inl ⟨hr, next_inj h⟩
  · exact .inr h

/-- Everything POP can do. -/
theorem execPop_next {ra : Byte} {s t : State} (h : execPop ra s = .next t) :
    (s.sp = Config.spInit ∧ t = enterFault (.stackEmpty s.pc) s) ∨
      (s.sp ≠ Config.spInit ∧ ∃ hr : ra.toNat < 8, t = advancePc 2 (popByte ⟨ra.toNat, hr⟩ s)) ∨
      (s.sp ≠ Config.spInit ∧ 8 ≤ ra.toNat ∧ t = enterFault (.registerIndexFault s.pc ra) s) := by
  simp only [execPop] at h
  split at h
  · rename_i he
    exact .inl ⟨(stackIsEmpty_iff s).1 he, next_inj h⟩
  · rename_i he
    have hne : s.sp ≠ Config.spInit := fun h' => he ((stackIsEmpty_iff s).2 h')
    rcases checkReg_next h with ⟨hr, h⟩ | h
    · exact .inr (.inl ⟨hne, hr, next_inj h⟩)
    · exact .inr (.inr ⟨hne, h⟩)

theorem noStep_running : noStep .running = none := rfl

/-- There is no reason not to step exactly while running. -/
theorem noStep_eq_none {st : Status} : noStep st = none ↔ st = .running := by
  cases st <;> simp [noStep]

/-- The step of a running machine. -/
theorem step_running {s : State} (h : s.status = .running) : step s = runInstruction s := by
  simp [step, stepOnce, h, noStep]

/-- What the decoder makes of the three bytes: the instruction assembled for the opcode, or nothing. -/
theorem fetchDecode_ok {s : State} {i : Instr} (h : fetchDecode s = .ok i) :
    ∃ o, opcodeOf (opcodeByte s) = some o ∧ i = assemble o (operandA s) (operandB s) := by
  simp only [fetchDecode, decodeWord] at h
  split at h
  · rename_i o ho
    injection h with h
    exact ⟨o, ho, h.symm⟩
  · simp at h

/-- Where the decoder refuses, the opcode byte is unbound. -/
theorem fetchDecode_error {s : State} {e : DecodeRefusal} (h : fetchDecode s = .error e) :
    opcodeOf (opcodeByte s) = none := by
  simp only [fetchDecode, decodeWord] at h
  split at h
  · simp at h
  · assumption

/-- Everything a step can do: it needs a running machine, and runs the decoded instruction or raises the decode
error. -/
theorem step_next {s t : State} (h : step s = .next t) :
    s.status = .running ∧
      ((∃ o, opcodeOf (opcodeByte s) = some o ∧ exec (assemble o (operandA s) (operandB s)) s = .next t) ∨
        (opcodeOf (opcodeByte s) = none ∧ t = enterFault (.decodeError s.pc (opcodeByte s)) s)) := by
  simp only [step, stepOnce] at h
  split at h
  · simp at h
  · rename_i hn
    refine ⟨noStep_eq_none.1 hn, ?_⟩
    simp only [runInstruction] at h
    split at h
    · rename_i i hi
      obtain ⟨o, ho, rfl⟩ := fetchDecode_ok hi
      exact .inl ⟨o, ho, h⟩
    · rename_i e he
      exact .inr ⟨fetchDecode_error he, next_inj h⟩

/-- The same by opcode byte. -/
theorem step_cases {s t : State} (h : step s = .next t) :
    s.status = .running ∧
      ((opcodeOf (opcodeByte s) = none ∧ t = enterFault (.decodeError s.pc (opcodeByte s)) s) ∨
        (opcodeByte s = 0x82#8 ∧ execLdi (operandA s) (operandB s) s = .next t) ∨
        (opcodeByte s = 0x47#8 ∧ execPrn (operandA s) s = .next t) ∨
        (opcodeByte s = 0xA2#8 ∧ execMul (operandA s) (operandB s) s = .next t) ∨
        (opcodeByte s = 0x01#8 ∧ execHlt s = .next t) ∨
        (opcodeByte s = 0x46#8 ∧ execPop (operandA s) s = .next t) ∨
        (opcodeByte s = 0x45#8 ∧ execPush (operandA s) s = .next t)) := by
  obtain ⟨hs, ⟨o, ho, h⟩ | hn⟩ := step_next h
  · refine ⟨hs, .inr ?_⟩
    rcases opcodeOf_some ho with ⟨h', rfl⟩ | ⟨h', rfl⟩ | ⟨h', rfl⟩ | ⟨h', rfl⟩ | ⟨h', rfl⟩ | ⟨h', rfl⟩ <;>
      simp only [assemble, exec] at h <;> simp [h', h]
  · exact ⟨hs, .inl hn⟩

/-- Every instruction answers a next state, in every state. -/
theorem exec_answers (i : Instr) (s : State) : ∃ t, exec i s = .next t := by
  cases i with
  | ldi ra imm => exact (lt_or_ge ra.toNat 8).elim (fun h => ⟨_, execLdi_ok h s⟩) (fun h => ⟨_, execLdi_bad h s⟩)
  | prn ra => exact (lt_or_ge ra.toNat 8).elim (fun h => ⟨_, execPrn_ok h s⟩) (fun h => ⟨_, execPrn_bad h s⟩)
  | mul ra rb =>
    rcases lt_or_ge ra.toNat 8 with ha | ha
    · exact (lt_or_ge rb.toNat 8).elim (fun h => ⟨_, execMul_ok ha h s⟩) (fun h => ⟨_, execMul_bad_second ha h s⟩)
    · exact ⟨_, execMul_bad ha s⟩
  | hlt => exact ⟨_, rfl⟩
  | pop ra =>
    by_cases hs : s.sp = Config.spInit
    · exact ⟨_, execPop_empty hs⟩
    · exact (lt_or_ge ra.toNat 8).elim (fun h => ⟨_, execPop_ok h hs⟩) (fun h => ⟨_, execPop_bad h hs⟩)
  | push ra => exact (lt_or_ge ra.toNat 8).elim (fun h => ⟨_, execPush_ok h s⟩) (fun h => ⟨_, execPush_bad h s⟩)

/-- The bytes an instruction occupies, by opcode byte. -/
theorem bytesAtPc_eq (s : State) :
    bytesAtPc s =
      if opcodeByte s = 0x82#8 ∨ opcodeByte s = 0xA2#8 then 3
      else if opcodeByte s = 0x47#8 ∨ opcodeByte s = 0x46#8 ∨ opcodeByte s = 0x45#8 then 2
      else 1 := by
  simp only [bytesAtPc]
  split
  · rename_i i hi
    obtain ⟨o, ho, rfl⟩ := fetchDecode_ok hi
    rcases opcodeOf_some ho with ⟨h, rfl⟩ | ⟨h, rfl⟩ | ⟨h, rfl⟩ | ⟨h, rfl⟩ | ⟨h, rfl⟩ | ⟨h, rfl⟩ <;>
      simp [h, assemble, Instr.length]
  · rename_i e he
    have hn := fetchDecode_error he
    rw [if_neg, if_neg]
    · rintro (h | h | h) <;> simp [h, opcodeOf] at hn
    · rintro (h | h) <;> simp [h, opcodeOf] at hn

/-- The advance of a step that has a next state. -/
theorem advanceOf_next {s t : State} (h : step s = .next t) :
    advanceOf s = if t.status = .running then bytesAtPc s else 0 := by
  simp [advanceOf, h]

/-- Steps one after another. -/
theorem runSteps_succ {n : Nat} {s t : State} (h : step s = .next t) : runSteps (n + 1) s = runSteps n t := by
  simp [runSteps, h]

end Sys2Proof.Machine
end

