-- ==== Sys2Proof/Machine/Mnemonic.lean ====
section
/-! DEFINITION. The mnemonic form of an instruction, for people (30_encoding R62): the mnemonic, registers as `R` and a
decimal index, immediates in decimal, operands in the order of their bytes. -/

namespace Sys2Proof.Machine

/-- A register operand in text (R62). -/
def registerText (r : Byte) : List Char := 'R' :: decimal r

/-- An instruction in text (R62). -/
def mnemonicText : Instr → List Char
  | .ldi ra imm => ['L', 'D', 'I', ' '] ++ registerText ra ++ ',' :: decimal imm
  | .prn ra => ['P', 'R', 'N', ' '] ++ registerText ra
  | .mul ra rb => ['M', 'U', 'L', ' '] ++ registerText ra ++ ',' :: registerText rb
  | .hlt => ['H', 'L', 'T']
  | .pop ra => ['P', 'O', 'P', ' '] ++ registerText ra
  | .push ra => ['P', 'U', 'S', 'H', ' '] ++ registerText ra

end Sys2Proof.Machine
end

