-- ==== Sys2Proof/Tests/Slice0.lean ====
section
/-! SUPPORT. Tests whose expected results are the spec's own vectors (95_test_vectors; the identifier of the vector stands
with each test) and, for every statement that has hypotheses, a named witness that meets them together. -/

namespace Sys2Proof.Tests

open Sys2Proof Sys2Proof.Machine

/-- The next state of a result, if there is one. -/
def after : Result → Option State
  | .next t => some t
  | .fault _ => none
  | .refused _ => none

/-- A running state with the given `pc`, `sp`, registers and cells. -/
def stateAt (pc sp : Byte) (x : Vector Byte 8) (cells : List (Byte × Byte)) : State :=
  { State.resetWith x with pc := pc, sp := sp, mem := cells.foldl (fun m c => m.write c.1 c.2) [] }

/-- Eight registers that hold 10, 11, ... 17. -/
def regs10 : Vector Byte 8 := #v[10#8, 11#8, 12#8, 13#8, 14#8, 15#8, 16#8, 17#8]

/-! ### WellFormed: one ill-formed term for each check (R59) -/

theorem test_wf_seven : (Instr.ldi 7 255).wf = true ∧ (Instr.mul 0 7).wf = true ∧ Instr.hlt.wf = true := by decide
theorem test_illformed_ldi : (Instr.ldi 8 0).wf = false := by decide
theorem test_illformed_prn : (Instr.prn 8).wf = false := by decide
theorem test_illformed_mul_first : (Instr.mul 8 0).wf = false := by decide
theorem test_illformed_mul_second : (Instr.mul 0 8).wf = false := by decide
theorem test_illformed_pop : (Instr.pop 255).wf = false := by decide
theorem test_illformed_push : (Instr.push 8).wf = false := by decide

/-! ### Decode: every opcode bit by bit from the opcode map (R53), and unbound neighbours (D-DEC) -/

theorem test_decode_ldi : decodeTableWord 24 0b001011000000001010000010 = some (.ldi 2 44) := by decide
theorem test_decode_prn : decodeTableWord 16 0b0000001001000111 = some (.prn 2) := by decide
theorem test_decode_mul : decodeTableWord 24 0b000000110000001010100010 = some (.mul 2 3) := by decide
theorem test_decode_hlt : decodeTableWord 8 0b00000001 = some .hlt := by decide
theorem test_decode_pop : decodeTableWord 16 0b0000001001000110 = some (.pop 2) := by decide
theorem test_decode_push : decodeTableWord 16 0b0000001001000101 = some (.push 2) := by decide
theorem test_decode_short_word : decodeTableWord 8 0x82 = some (.ldi 0 0) := by decide
theorem test_unbound_zero : decodeTableWord 8 0x00 = none := by decide
theorem test_unbound_add_of_others : decodeTableWord 24 0x0100A0 = none := by decide
theorem test_unbound_three_byte_bits : decodeTableWord 24 0x000080 = none := by decide
theorem test_encode_mul : encode (.mul 2 3) = [0xA2#8, 0x02#8, 0x03#8] := by decide

/-! ### Instructions -/

/-- LDI-7: an LDI across the top of memory. -/
theorem test_ldi_wraps :
    (after (step (stateAt 0xFF 0xF4 regs10 [(0xFF, 0x82), (0x00, 3), (0x01, 0x44)]))).map
      (fun t => (readReg 3 t, readReg 2 t, t.pc, t.status)) = some (68#8, 12#8, 2#8, .running) := by decide
/-- LDI-5: the whole byte is the index. -/
theorem test_ldi_bad_index :
    (after (step (stateAt 0x10 0xF4 regs10 [(0x10, 0x82), (0x11, 0xFF), (0x12, 1)]))).map
      (fun t => (t.status, t.pc, t.x)) = some (.faulted (.registerIndexFault 0x10 255), 0x10#8, regs10) := by decide
/-- PRN-2. -/
theorem test_prn_appends :
    (after (step { stateAt 0x20 0xF4 #v[0, 0, 0, 0, 0, 255, 0, 0] [(0x20, 0x47), (0x21, 5)] with out := [0] })).map
      (fun t => (t.out, t.pc)) = some ([0#8, 255#8], 0x22#8) := by decide
/-- PRN-5: a faulting PRN emits nothing. -/
theorem test_prn_bad_index :
    (after (step { stateAt 0x20 0xF4 regs10 [(0x20, 0x47), (0x21, 0x0A)] with out := [1] })).map
      (fun t => (t.out, t.status)) = some ([1#8], .faulted (.registerIndexFault 0x20 10)) := by decide
/-- MUL-7: 200 * 3. -/
theorem test_mul_overflows :
    (after (step (stateAt 0x06 0xF4 #v[0, 0, 0, 0, 0, 0, 3, 200] [(0x06, 0xA2), (0x07, 7), (0x08, 6)]))).map
      (fun t => (readReg 7 t, readReg 6 t, t.pc)) = some (88#8, 3#8, 9#8) := by decide
/-- MUL-9: `operand_a` is reported, not `operand_b`. -/
theorem test_mul_two_bad_indexes :
    (after (step (stateAt 0x06 0xF4 regs10 [(0x06, 0xA2), (0x07, 9), (0x08, 0x0A)]))).map (fun t => t.status)
      = some (.faulted (.registerIndexFault 0x06 9)) := by decide
/-- HLT-1. -/
theorem test_hlt_stops :
    (after (step (stateAt 0x20 0xF4 regs10 [(0x20, 0x01), (0x21, 0xFF)]))).map (fun t => (t.run, t.status, t.pc))
      = some (false, .halted, 0x20#8) := by decide
/-- HLT-3: no step in `Halted`. -/
theorem test_no_step_after_hlt : after (step (stopLoop (stateAt 0x20 0xF4 regs10 [(0x20, 0x47)]))) = none := by decide
/-- PUSH-2: the store at address 0 and the wrap of `sp`. -/
theorem test_push_wraps :
    (after (step (stateAt 0x10 0x00 #v[0, 0xAB, 0, 0, 0, 0, 0, 0] [(0x00, 0x82), (0x10, 0x45), (0x11, 1)]))).map
      (fun t => (memRead 0x00 t, t.sp, t.pc)) = some (0xAB#8, 0xFF#8, 0x12#8) := by decide
/-- PUSH-6: a PUSH over its own opcode. -/
theorem test_push_over_itself :
    (after (step (stateAt 0x30 0x30 #v[0, 0, 0, 0, 0, 0, 0, 0] [(0x30, 0x45), (0x31, 2)]))).map
      (fun t => (memRead 0x30 t, t.sp, t.pc, t.status)) = some (0#8, 0x2F#8, 0x32#8, .running) := by decide
/-- POP-7: a POP that reads its own opcode byte. -/
theorem test_pop_reads_itself :
    (after (step (stateAt 0x40 0x3F regs10 [(0x40, 0x46), (0x41, 3)]))).map
      (fun t => (readReg 3 t, t.sp, t.pc)) = some (70#8, 0x40#8, 0x42#8) := by decide
/-- POP-3: the empty stack before the register operand. -/
theorem test_pop_empty_first :
    (after (step (stateAt 0x02 0xF4 regs10 [(0x02, 0x46), (0x03, 9)]))).map (fun t => (t.status, t.sp))
      = some (.faulted (.stackEmpty 0x02), 0xF4#8) := by decide
/-- D-DEC: 0x80 is no three-byte instruction. -/
theorem test_step_unbound :
    (after (step (stateAt 0x40 0xF0 regs10 [(0x40, 0x80)]))).map (fun t => (t.status, t.pc))
      = some (.faulted (.decodeError 0x40 0x80), 0x40#8) := by decide

/-! ### ALU, console, load -/

/-- D-ALU. -/
theorem test_alu_add : alu .add 200 100 = 44 ∧ alu .add 255 1 = 0 ∧ alu .add 128 128 = 0 := by decide
/-- D-ALU. -/
theorem test_alu_mul : alu .mul 8 9 = 72 ∧ alu .mul 37 7 = 3 ∧ alu .mul 255 255 = 1 := by decide
/-- D-PRN: 7 is shown as `7`, 100 as `100`. -/
theorem test_console : consoleText [7, 100] = ['7', '\n', '1', '0', '0', '\n'] := by decide
/-- R62. -/
theorem test_mnemonic : mnemonicText (.ldi 0 8) = ['L', 'D', 'I', ' ', 'R', '0', ',', '8'] := by decide
/-- D-IMG: a short numeral with a comment, an indented line, another word. -/
theorem test_image_lines :
    (imageOfLines [['1', '0', ' ', '#', 'x'], [' ', '1'], ['h'], [], ['1']]).toOption = some [2#8, 1#8] := by decide
/-- D-IMG: `100000000` is above 255, `10000012` is not base 2. -/
theorem test_image_errors :
    lineByte ['1', '0', '0', '0', '0', '0', '0', '0', '0'] = .error .valueAbove255 ∧
      lineByte ['1', '0', '0', '0', '0', '0', '1', '2'] = .error .notBinary := ⟨rfl, rfl⟩
/-- RST-2. -/
theorem test_start :
    (fun s => (memRead 0 s, memRead 1 s, memRead 2 s, memRead 3 s, s.pc, s.sp)) (start regs10 [0x82, 0x00, 0x08])
      = (0x82#8, 0#8, 8#8, 0#8, 0#8, 0xF4#8) := by decide
/-- Each row of the opcode table runs as the first instruction after reset (POP finds the stack empty). -/
theorem test_first_instruction :
    ((after (step (State.reset.withFetchWord 24 0x082782))).map (fun t => t.status),
      (after (step (State.reset.withFetchWord 16 0x0747))).map (fun t => t.pc),
      (after (step (State.reset.withFetchWord 24 0x0706A2))).map (fun t => t.pc),
      (after (step (State.reset.withFetchWord 8 0x01))).map (fun t => t.status),
      (after (step (State.reset.withFetchWord 16 0x0346))).map (fun t => t.status),
      (after (step (State.reset.withFetchWord 16 0x0345))).map (fun t => t.sp))
      = (some (.faulted (.registerIndexFault 0 0x27)), some 2#8, some 3#8, some .halted,
          some (.faulted (.stackEmpty 0)), some 0xF3#8) := by decide

/-! ### Witnesses of the statements' hypotheses -/

/-- A step with a next state, for each opcode completing and for each way to fault. -/
abbrev stepLdi : State := stateAt 0xFE 0xF4 regs10 [(0xFE, 0x82), (0xFF, 7), (0x00, 1)]
abbrev stepPrn : State := stateAt 0xFF 0xF4 regs10 [(0xFF, 0x47), (0x00, 7)]
abbrev stepMul : State := stateAt 0 0xF4 regs10 [(0, 0xA2), (1, 0), (2, 7)]
abbrev stepHlt : State := stateAt 0 0xF4 regs10 [(0, 0x01)]
abbrev stepPush : State := stateAt 0x10 0x00 regs10 [(0x10, 0x45), (0x11, 7)]
abbrev stepPop : State := stateAt 0x10 0xFF regs10 [(0x10, 0x46), (0x11, 0)]
abbrev stepPopEmpty : State := stateAt 0x10 0xF4 regs10 [(0x10, 0x46), (0x11, 8)]
abbrev stepBadA : State := stateAt 0x10 0xF5 regs10 [(0x10, 0x47), (0x11, 8)]
abbrev stepBadB : State := stateAt 0x10 0xF5 regs10 [(0x10, 0xA2), (0x11, 7), (0x12, 8)]
abbrev stepUnbound : State := stateAt 0x10 0xF4 regs10 []

theorem witness_steps : ∀ s ∈ [stepLdi, stepPrn, stepMul, stepHlt, stepPush, stepPop, stepPopEmpty, stepBadA, stepBadB,
    stepUnbound], s.status = .running ∧ (after (step s)).isSome = true := by decide

theorem witness_DecodedBytesAreTheEncoding : decode [0x47#8, 0xFF#8] = .ok (.prn 0xFF, []) := rfl

theorem witness_DecodingIsExactMatch :
    decodeWord 0x01#8 0xFF 0xFF = .ok .hlt ∧ decodeWord 0x82#8 0 0 = .ok (.ldi 0 0) ∧ decodeWord 0x45#8 9 0 = .ok (.push 9) ∧
      (0x44#8 ∉ [0x82#8, 0x47#8, 0xA2#8, 0x01#8, 0x46#8, 0x45#8]) := ⟨rfl, rfl, rfl, by decide⟩

/-- The ends of the five ranges. -/
theorem witness_UnboundOpcodeRaisesDecodeError :
    ∀ op ∈ [0x00#8, 0x02#8, 0x44#8, 0x48#8, 0x81#8, 0x83#8, 0xA1#8, 0xA3#8, 0xFF#8],
      (stateAt 0xFF 0xF4 regs10 [(0xFF, op)]).status = .running ∧
      memRead 0xFF (stateAt 0xFF 0xF4 regs10 [(0xFF, op)]) = op ∧
      (op.toNat = 0x00 ∨ (0x02 ≤ op.toNat ∧ op.toNat ≤ 0x44) ∨ (0x48 ≤ op.toNat ∧ op.toNat ≤ 0x81) ∨
        (0x83 ≤ op.toNat ∧ op.toNat ≤ 0xA1) ∨ (0xA3 ≤ op.toNat ∧ op.toNat ≤ 0xFF)) := by decide

theorem witness_ResetAndLoadedStartState : (List.replicate 256 0x47#8).length ≤ 256 :=
  List.length_replicate.le

theorem witness_OverlongImageIsLoadError : 256 < (List.replicate 257 0x47#8).length := by
  rw [List.length_replicate]; decide

theorem witness_CommentsAndOtherLinesIgnored :
    ('#' ∉ ['1'] ∧ lineRelevant ['1'] = true) ∧ ([' ', '1'].head? ≠ some '0' ∧ [' ', '1'].head? ≠ some '1') ∧
      (([] : List Char).head? ≠ some '0' ∧ ([] : List Char).head? ≠ some '1') := by decide

theorem witness_EqualMemoriesAreEqualData :
    Memory.wf [(0, 1#8), (255, 0xFF#8)] ∧ ∀ a : Addr, Memory.read [(0, 1#8), (255, 0xFF#8)] a
      = Memory.read [(0, 1#8), (255, 0xFF#8)] a := ⟨by decide, fun _ => rfl⟩

/-- The register operands of the instruction statements, at both ends. -/
theorem witness_register_operands : (0x00#8).toNat = (0 : RegIndex).val ∧ (0x07#8).toNat = (7 : RegIndex).val := by decide

theorem witness_LdiLoadsTheImmediate : (0x07#8).toNat = (7 : RegIndex).val := by decide
theorem witness_PrnEmitsTheRegister : (0x07#8).toNat = (7 : RegIndex).val := by decide
theorem witness_MulWritesTheProduct :
    (0x07#8).toNat = (7 : RegIndex).val ∧ (0x00#8).toNat = (0 : RegIndex).val := by decide
theorem witness_PushStoresThenDecrements : (0x00#8).toNat = (0 : RegIndex).val := by decide

theorem witness_HltStopsTheLoop : (after (step stepHlt)).map (fun t => t.status) = some .halted := by decide

theorem witness_PopIncrementsThenLoads :
    (0x00#8).toNat = (0 : RegIndex).val ∧ stepPop.sp ≠ 0xF4#8 ∧ stepBadA.sp ≠ 0xF4#8 := by decide

theorem witness_RegisterByteAboveSevenFaults :
    7 < (0x08#8).toNat ∧ stepBadA.sp ≠ 0xF4#8 ∧ (0x07#8).toNat ≤ 7 ∧ 7 < (0xFF#8).toNat := by decide

theorem witness_StackEmptyExactlyOnTheSentinel :
    (after (step stepPopEmpty)).map (fun t => t.status) = some (.faulted (.stackEmpty 0x10)) ∧
      fixedPhrase (.stackEmpty 0x10) ≠ none := by decide

/-- Each branch of the priority. -/
theorem witness_StatusFollowsFaultPriority :
    [stepUnbound, stepPopEmpty, stepBadA, stepBadB, stepHlt, stepMul].map (fun s => (after (step s)).map (fun t => t.status))
      = [some (.faulted (.decodeError 0x10 0)), some (.faulted (.stackEmpty 0x10)),
          some (.faulted (.registerIndexFault 0x10 8)), some (.faulted (.registerIndexFault 0x10 8)), some .halted,
          some .running] := by decide

theorem witness_FaultsArePrecise :
    (after (step stepBadB)).map (fun t => t.status) = some (.faulted (.registerIndexFault 0x10 8)) := by decide

theorem witness_StepExactlyWhileRunning :
    (stopLoop stepHlt).status = .halted ∧
      (enterFault .aluDispatchError stepHlt).status = .faulted .aluDispatchError := by decide

theorem witness_AluDispatchErrorNeverRaised : (after (step stepMul)).isSome = true := by decide

theorem witness_StepRunsTheDecodedInstruction :
    stepLdi.status = .running ∧ decodeWord (memRead stepLdi.pc stepLdi) (memRead (stepLdi.pc + 1#8) stepLdi)
      (memRead (stepLdi.pc + 2#8) stepLdi) = .ok (.ldi 7 1) := ⟨by decide, rfl⟩

theorem witness_StepRunsEncodedBytes :
    stepLdi.status = .running ∧ ∀ (k : Nat) (h : k < (encode (.ldi 7 1)).length),
      memRead (stepLdi.pc + BitVec.ofNat 8 k) stepLdi = (encode (.ldi 7 1))[k] := by decide

theorem witness_PlacedWordIsRunNext :
    stepPrn.status = .running ∧ decodeTableWord 24 0x0700A2 = some (.mul 0 7) := by decide

/-- Both clauses: a store at the next opcode, and over the operand and the opcode of the PUSH itself. -/
theorem witness_PushedByteIsFetchedAsStored :
    ((0x02#8).toNat = (2 : RegIndex).val ∧ (stateAt 0x30 0x32 regs10 []).sp = (stateAt 0x30 0x32 regs10 []).pc + 2#8 ∧
      (after (exec (.push 2) (stateAt 0x30 0x32 regs10 []))).isSome = true) ∧
    ∀ sp ∈ [0x30#8, 0x31#8], (fun s : State => s.status = .running ∧ opcodeByte s = 0x45#8 ∧
      (operandA s).toNat = (2 : RegIndex).val ∧ (s.sp = s.pc ∨ s.sp = s.pc + 1#8))
        (stateAt 0x30 sp regs10 [(0x30, 0x45), (0x31, 2)]) := by decide

theorem witness_RunFlagClearedByHltAlone :
    StatusLink stepHlt ∧ (after (step stepHlt)).map (fun t => t.run) = some false ∧
      (after (step stepMul)).map (fun t => t.run) = some true := by decide

/-- A step that faults, one of three bytes, one of two, and HLT. -/
theorem witness_PcMovesByTheTable :
    [stepBadA, stepLdi, stepPrn, stepHlt].map (fun s => (after (step s)).map (fun t => t.pc))
      = [some 0x10#8, some 0x01#8, some 0x01#8, some 0x00#8] := by decide

theorem witness_OnlyPushWritesMemory :
    (after (step stepPush)).isSome = true ∧ opcodeByte stepPop ≠ 0x45#8 ∧ (after (step stepPop)).isSome = true := by decide

theorem witness_RegistersWrittenByLdiMulPop :
    [(stepLdi, 7), (stepMul, 0), (stepPop, 0)].map
      (fun p => (after (step p.1)).map (fun t => decide (readReg p.2 t ≠ readReg p.2 p.1)))
      = [some true, some true, some true] := by decide

theorem witness_StackPointerMovedByPushAndPop :
    [stepPush, stepPop].map (fun s => (after (step s)).map (fun t => decide (t.sp ≠ s.sp))) = [some true, some true] := by
  decide

theorem witness_OutputGrowsByPrnAlone :
    ((after (step stepPrn)).isSome = true ∧ opcodeByte stepPrn = 0x47#8 ∧ (operandA stepPrn).toNat = (7 : RegIndex).val) ∧
    ((after (step stepMul)).isSome = true ∧ opcodeByte stepMul ≠ 0x47#8) ∧
    ((after (step stepBadA)).isSome = true ∧ 7 < (operandA stepBadA).toNat) := by decide

theorem witness_OnlyPushAndPopSeeTheStackPointer :
    ∀ i ∈ [Instr.ldi 7 1, .prn 8, .mul 0 7, .hlt], i.opcode ≠ 0x45#8 ∧ i.opcode ≠ 0x46#8 ∧
      (after (exec i stepMul)).isSome = true := by decide

theorem witness_RegistersNeverSteer :
    (after (step stepMul)).isSome = true ∧
      (after (step { stepMul with x := Vector.replicate 8 0xFF#8, out := [1] })).isSome = true := by decide

theorem witness_PopLeavesTheCell :
    stepPop.sp ≠ 0xF4#8 ∧ (0x07#8).toNat < 8 ∧ (0x00#8).toNat = (0 : RegIndex).val ∧
      (after (exec (.pop 7) stepPop)).isSome = true := by decide

theorem witness_PushThenPopRestores : (0x07#8).toNat = (7 : RegIndex).val ∧ stepPopEmpty.sp ≠ 0xF5#8 := by decide

theorem witness_PushToTheSentinelLooksEmpty : (0x07#8).toNat < 8 ∧ stepBadA.sp = 0xF5#8 := by decide

theorem witness_PushesWalkDown :
    [(0 : RegIndex), 7].length ≤ 256 ∧ 1 < [(0 : RegIndex), 7].length ∧
      ∀ k < [(0 : RegIndex), 7].length, (0xF2#8 : Addr) ≠ 0xF4#8 - BitVec.ofNat 8 k := by decide

/-- STK-1: two pushes from 0xF4 and two pops in the same order, no register popped into twice. -/
theorem witness_PopsReturnThePushesInReverse :
    [(0 : RegIndex), 1].length = [(0 : RegIndex), 1].length ∧
      (∀ k ≤ 2, 1 ≤ k → (0xF4#8 : Addr) - BitVec.ofNat 8 k ≠ 0xF4#8) ∧
      ((2 : RegIndex) ∉ [(0 : RegIndex), 1]) ∧ (1 : RegIndex) ≠ 0 := by decide

theorem witness_StepKeepsTheInvariant : Inv State.reset ∧ (after (step State.reset)).isSome = true :=
  ⟨⟨Memory.wf_nil, by decide, trivial⟩, by decide⟩

/-- PRN of a bad register and POP on empty at 0xFE, and LDI to a bad register at 0xFD, end at 0xFF and advance by nothing
(R14, R15); the same three completing would advance past 0xFF, and one byte higher their bytes lie past it. -/
theorem test_wrap_free :
    (∀ s ∈ [stateAt 0xFE 0xF4 regs10 [(0xFE, 0x47), (0xFF, 8)], stateAt 0xFE 0xF4 regs10 [(0xFE, 0x46)],
      stateAt 0xFD 0xF4 regs10 [(0xFD, 0x82), (0xFE, 8)], stateAt 0xFF 0xF4 regs10 [(0xFF, 0x01)]], WrapFree s) ∧
    (∀ s ∈ [stateAt 0xFE 0xF4 regs10 [(0xFE, 0x47)], stateAt 0xFE 0xF5 regs10 [(0xFE, 0x46)],
      stateAt 0xFD 0xF4 regs10 [(0xFD, 0x82)], stateAt 0xFF 0xF4 regs10 [(0xFF, 0x47), (0x00, 8)],
      stateAt 0xFF 0xF4 regs10 [(0xFF, 0x46)], stateAt 0xFE 0xF4 regs10 [(0xFE, 0x82), (0xFF, 8)]], ¬ WrapFree s) := by
  decide

theorem witness_WrapFreeStepsNeverWrap :
    ((after (step stepPush)).isSome = true ∧ WrapFree stepPush) ∧
    ((after (step stepBadA)).map (fun t => decide (Ended t)) = some true ∧ WrapFree stepBadA) ∧
    ((after (step stepLdi)).isSome = true ∧ ¬ WrapFree stepLdi) := by decide

/-- PRN R0, then HLT at address 2: wrap-free, and ended after two steps. -/
theorem witness_WrapFreeRunEndsWithin128Steps :
    (stateAt 0 0xF4 regs10 [(0, 0x47), (2, 0x01)]).pc = 0x00#8 ∧
      ∀ k < 128, WrapFree (runSteps k (stateAt 0 0xF4 regs10 [(0, 0x47), (2, 0x01)])) := by decide

theorem witness_AluLaws : 8 ≤ 8 := by decide

end Sys2Proof.Tests
end

section
/-! PROOFS. What one step can leave, said as data: the fault a step takes with the guard of 60_exceptions section 2 that
selects it, or the completed instruction. The frames and moves of 10_state, and the invariant, are read off its cases. -/

namespace Sys2Proof.Machine

/-- The fault the step at `s` takes, each with what came before it in the order of R137. -/
inductive StepFault (s : State) : FaultKind → Prop
  | decode (hop : opcodeOf (opcodeByte s) = none) : StepFault s (.decodeError s.pc (opcodeByte s))
  | stackEmpty (hop : opcodeByte s = 0x46#8) (hsp : s.sp = Config.spInit) : StepFault s (.stackEmpty s.pc)
  | firstOperand (hop : opcodeByte s ∈ [0x82#8, 0x47#8, 0xA2#8, 0x46#8, 0x45#8])
      (hsp : opcodeByte s = 0x46#8 → s.sp ≠ Config.spInit) (ha : 8 ≤ (operandA s).toNat) :
      StepFault s (.registerIndexFault s.pc (operandA s))
  | secondOperand (hop : opcodeByte s = 0xA2#8) (ha : (operandA s).toNat < 8) (hb : 8 ≤ (operandB s).toNat) :
      StepFault s (.registerIndexFault s.pc (operandB s))

/-- The state the step at `s` leaves: a fault's, or that of the completed instruction. -/
inductive StepEffect (s : State) : State → Prop
  | fault {k : FaultKind} (hk : StepFault s k) : StepEffect s (enterFault k s)
  | ldi (hop : opcodeByte s = 0x82#8) (ha : (operandA s).toNat < 8) :
      StepEffect s (advancePc 3 (writeReg ⟨(operandA s).toNat, ha⟩ (operandB s) s))
  | prn (hop : opcodeByte s = 0x47#8) (ha : (operandA s).toNat < 8) :
      StepEffect s (advancePc 2 (emit (readReg ⟨(operandA s).toNat, ha⟩ s) s))
  | mul (hop : opcodeByte s = 0xA2#8) (ha : (operandA s).toNat < 8) (hb : (operandB s).toNat < 8) :
      StepEffect s (advancePc 3 (aluExec .mul ⟨(operandA s).toNat, ha⟩ ⟨(operandB s).toNat, hb⟩ s))
  | hlt (hop : opcodeByte s = 0x01#8) : StepEffect s (stopLoop s)
  | pop (hop : opcodeByte s = 0x46#8) (hsp : s.sp ≠ Config.spInit) (ha : (operandA s).toNat < 8) :
      StepEffect s (advancePc 2 (popByte ⟨(operandA s).toNat, ha⟩ s))
  | push (hop : opcodeByte s = 0x45#8) (ha : (operandA s).toNat < 8) :
      StepEffect s (advancePc 2 (pushByte (readReg ⟨(operandA s).toNat, ha⟩ s) s))

/-- Only a running machine steps (R70). -/
theorem status_running_of_step {s t : State} (h : step s = .next t) : s.status = .running := (step_next h).1

/-- Every step has one of the effects. -/
theorem stepEffect_of_step {s t : State} (h : step s = .next t) : StepEffect s t := by
  obtain ⟨-, ⟨hop, rfl⟩ | ⟨hop, h⟩ | ⟨hop, h⟩ | ⟨hop, h⟩ | ⟨hop, h⟩ | ⟨hop, h⟩ | ⟨hop, h⟩⟩ := step_cases h
  · exact .fault (.decode hop)
  · obtain ⟨ha, rfl⟩ | ⟨ha, rfl⟩ := execLdi_next h
    · exact .ldi hop ha
    · exact .fault (.firstOperand (by simp [hop]) (by simp [hop]) ha)
  · obtain ⟨ha, rfl⟩ | ⟨ha, rfl⟩ := execPrn_next h
    · exact .prn hop ha
    · exact .fault (.firstOperand (by simp [hop]) (by simp [hop]) ha)
  · obtain ⟨ha, hb, rfl⟩ | ⟨ha, rfl⟩ | ⟨ha, hb, rfl⟩ := execMul_next h
    · exact .mul hop ha hb
    · exact .fault (.firstOperand (by simp [hop]) (by simp [hop]) ha)
    · exact .fault (.secondOperand hop ha hb)
  · obtain rfl := execHlt_next h
    exact .hlt hop
  · obtain ⟨hsp, rfl⟩ | ⟨hsp, ha, rfl⟩ | ⟨hsp, ha, rfl⟩ := execPop_next h
    · exact .fault (.stackEmpty hop hsp)
    · exact .pop hop hsp ha
    · exact .fault (.firstOperand (by simp [hop]) (fun _ => hsp) ha)
  · obtain ⟨ha, rfl⟩ | ⟨ha, rfl⟩ := execPush_next h
    · exact .push hop ha
    · exact .fault (.firstOperand (by simp [hop]) (by simp [hop]) ha)

/-- The state a fault is taken in shows its cause (R132 to R134). -/
theorem StepFault.shown {s : State} {k : FaultKind} (h : StepFault s k) : faultShown s k := by
  cases h with
  | decode hop => exact ⟨rfl, rfl, hop⟩
  | stackEmpty hop hsp => exact ⟨rfl, by rw [hop]; rfl, hsp⟩
  | firstOperand hop _ ha =>
    have hbound : ∃ o, opcodeOf (opcodeByte s) = some o ∧ o ≠ .hlt := by
      simp only [List.mem_cons, List.not_mem_nil, or_false] at hop
      rcases hop with h | h | h | h | h <;> simp [h, opcodeOf]
    exact ⟨rfl, ha, .inl ⟨rfl, hbound⟩⟩
  | secondOperand hop _ hb => exact ⟨rfl, hb, .inr ⟨rfl, by rw [hop]; rfl⟩⟩

/-- A PRN that faults does so for its one operand. -/
theorem StepFault.prn_operand {s : State} {k : FaultKind} (h : StepFault s k) (hprn : opcodeByte s = 0x47#8) :
    8 ≤ (operandA s).toNat := by
  cases h with
  | decode hop => simp [hprn, opcodeOf] at hop
  | stackEmpty hop _ => simp [hprn] at hop
  | firstOperand _ _ ha => exact ha
  | secondOperand hop _ _ => simp [hprn] at hop

/-- What a fault kind says of a state speaks of `mem`, `pc` and `sp` alone, which taking the fault keeps. -/
theorem faultShown_enterFault (j k : FaultKind) (s : State) : faultShown (enterFault j s) k ↔ faultShown s k := by
  cases k <;> rfl

/-! ### The invariant -/

/-- Every step keeps memory canonical. -/
theorem StepEffect.mem_wf {s t : State} (h : StepEffect s t) (hm : s.mem.wf) : t.mem.wf := by
  cases h with
  | push => exact Memory.wf_write hm _ _
  | _ => exact hm

/-- Every step from a running state keeps `run` linked to `status` (R19). -/
theorem StepEffect.statusLink {s t : State} (h : StepEffect s t) (hs : s.status = .running) (hl : StatusLink s) :
    StatusLink t := by
  have hrun : s.run = true := by simpa [StatusLink, hs] using hl
  cases h <;> simp [StatusLink, hs, hrun]

/-- Every step from a running state leaves a state that explains itself (R13). -/
theorem StepEffect.terminalShown {s t : State} (h : StepEffect s t) (hs : s.status = .running) : TerminalShown t := by
  cases h with
  | fault hk => exact (faultShown_enterFault _ _ s).2 hk.shown
  | hlt hop => exact (congrArg opcodeOf hop : opcodeOf (opcodeByte s) = some .hlt)
  | _ => simp [TerminalShown, hs]

/-- Settles O43: each clause of the invariant is kept by every effect of a step. -/
theorem stepKeepsTheInvariant : Obligations.StepKeepsTheInvariant := by
  intro s t hinv h
  have hs := status_running_of_step h
  have he := stepEffect_of_step h
  exact ⟨he.mem_wf hinv.mem, he.statusLink hs hinv.link, he.terminalShown hs⟩

/-- The invariant holds at reset. -/
theorem inv_resetWith (regs : Vector Byte 8) : Inv (State.resetWith regs) :=
  ⟨Memory.wf_nil, by simp [StatusLink], trivial⟩

/-- A running machine that meets the invariant meets it with any load error. -/
theorem Inv.enterFault_loadError {s : State} (h : Inv s) (hs : s.status = .running) (r : LoadReason) :
    Inv (enterFault (.loadError r) s) :=
  have hrun : s.run = true := by simpa [StatusLink, hs] using h.link
  ⟨h.mem, by simp [StatusLink, hrun], trivial⟩

/-- The load of an image into a running machine, refused or not, keeps the invariant. -/
theorem Inv.loadImage {s : State} (h : Inv s) (hs : s.status = .running) (image : List Byte) :
    Inv (loadImage image s) := by
  unfold Machine.loadImage
  split
  · exact ⟨Memory.wf_writeList h.mem _ _, h.link, by simp [TerminalShown, hs]⟩
  · exact h.enterFault_loadError hs _

/-- So does the load from any source. -/
theorem Inv.loadSource {s : State} (h : Inv s) (hs : s.status = .running) (src : ImageSource) :
    Inv (loadSource src s) := by
  unfold Machine.loadSource
  split
  · exact h.loadImage hs _
  · exact h.enterFault_loadError hs _

/-- Settles O44: the reset state meets the invariant and every load into it keeps it. -/
theorem resetAndLoadsSatisfyTheInvariant : Obligations.ResetAndLoadsSatisfyTheInvariant :=
  ⟨inv_resetWith regInit, fun regs src => (inv_resetWith regs).loadSource rfl src⟩

/-! ### Reset and load -/

/-- Memory under a list of at most 256 bytes written from `a` on: the cell `k` above `a` holds the `k`-th byte, a cell
past the list what it held. The bound keeps the list from overwriting its own beginning. -/
theorem Memory.read_writeList (m : Memory) (a b : Addr) (vs : List Byte) (hlen : vs.length ≤ 256) :
    (m.writeList a vs).read b = vs.getD (b - a).toNat (m.read b) := by
  induction vs generalizing m a with
  | nil => rfl
  | cons v vs ih =>
    have hlen' : vs.length < 256 := by simpa [Nat.succ_le_iff] using hlen
    rw [Memory.writeList, ih _ _ hlen'.le, Memory.read_write]
    by_cases hb : b = a
    · subst hb
      have hlast : (b - (b + 1#8)).toNat = 255 := by bv_omega
      rw [hlast, List.getD_eq_default _ _ (by omega)]
      simp
    · have hnext : (b - a).toNat = (b - (a + 1#8)).toNat + 1 := by bv_omega
      simp [hnext, hb]

/-- The loaded start state of an image that fits (R163). -/
theorem start_of_length_le {image : List Byte} (h : image.length ≤ 256) (regs : Vector Byte 8) :
    start regs image = { State.resetWith regs with mem := Memory.writeList [] Config.loadBase image } :=
  if_pos h

/-- Settles O6: the reset table field by field, and the load as `Memory.read_writeList` at address 0. -/
theorem resetAndLoadedStartState : Obligations.ResetAndLoadedStartState := by
  refine fun regs => ⟨⟨fun _ => rfl, fun _ => rfl, rfl, rfl, rfl, rfl, rfl⟩, fun image hlen => ?_⟩
  rw [start_of_length_le hlen]
  refine ⟨fun a => ?_, rfl, rfl, rfl, rfl, rfl, rfl⟩
  have hread := Memory.read_writeList [] Config.loadBase a image hlen
  simpa [memRead, Config.loadBase, Config.memInit] using hread

/-! ### The running flag -/

/-- The step of a running machine at a bound opcode byte. -/
theorem step_of_opcodeOf_some {s : State} {o : Opcode} (hs : s.status = .running)
    (ho : opcodeOf (opcodeByte s) = some o) : step s = exec (assemble o (operandA s) (operandB s)) s := by
  simp [step_running hs, runInstruction, fetchDecode, decodeWord, ho]

/-- The step of a running machine at an unbound opcode byte. -/
theorem step_of_opcodeOf_none {s : State} (hs : s.status = .running) (ho : opcodeOf (opcodeByte s) = none) :
    step s = .next (enterFault (.decodeError s.pc (opcodeByte s)) s) := by
  simp [step_running hs, runInstruction, fetchDecode, decodeWord, ho, raise]

/-- The opcode byte of what an opcode assembles is the byte bound to it. -/
theorem opcode_assemble {b : Byte} {o : Opcode} (h : opcodeOf b = some o) (x y : Byte) :
    (assemble o x y).opcode = b := by
  rcases opcodeOf_some h with ⟨rfl, rfl⟩ | ⟨rfl, rfl⟩ | ⟨rfl, rfl⟩ | ⟨rfl, rfl⟩ | ⟨rfl, rfl⟩ | ⟨rfl, rfl⟩ <;> rfl

/-- No instruction reads `run`: with another value it does the same, HLT alone writing it (R18). -/
theorem exec_with_run {i : Instr} {s t : State} (h : exec i s = .next t) (b : Bool) :
    exec i { s with run := b } = .next { t with run := if i.opcode = 0x01#8 then false else b } := by
  cases i with
  | ldi ra imm =>
    obtain ⟨ha, rfl⟩ | ⟨ha, rfl⟩ := execLdi_next h
    · exact execLdi_ok ha _
    · exact execLdi_bad ha _
  | prn ra =>
    obtain ⟨ha, rfl⟩ | ⟨ha, rfl⟩ := execPrn_next h
    · exact execPrn_ok ha _
    · exact execPrn_bad ha _
  | mul ra rb =>
    obtain ⟨ha, hb, rfl⟩ | ⟨ha, rfl⟩ | ⟨ha, hb, rfl⟩ := execMul_next h
    · exact execMul_ok ha hb _
    · exact execMul_bad ha _
    · exact execMul_bad_second ha hb _
  | hlt =>
    obtain rfl := execHlt_next h
    rfl
  | pop ra =>
    obtain ⟨hsp, rfl⟩ | ⟨hsp, ha, rfl⟩ | ⟨hsp, ha, rfl⟩ := execPop_next h
    · exact execPop_empty hsp
    · exact execPop_ok ha hsp
    · exact execPop_bad ha hsp
  | push ra =>
    obtain ⟨ha, rfl⟩ | ⟨ha, rfl⟩ := execPush_next h
    · exact execPush_ok ha _
    · exact execPush_bad ha _

/-- No step reads `run`, and HLT's alone writes it (R18). -/
theorem step_with_run {s t : State} (h : step s = .next t) (b : Bool) :
    step { s with run := b } = .next { t with run := if opcodeByte s = 0x01#8 then false else b } := by
  obtain ⟨hs, ⟨o, ho, h⟩ | ⟨hn, rfl⟩⟩ := step_next h
  · rw [← opcode_assemble ho (operandA s) (operandB s), ← exec_with_run h b]
    exact step_of_opcodeOf_some hs ho
  · have hne : opcodeByte s ≠ 0x01#8 := fun h => by simp [h, opcodeOf] at hn
    rw [if_neg hne]
    exact step_of_opcodeOf_none hs hn

/-- Settles O30: `step_with_run`, and the link of `run` to `status`, which the step keeps. -/
theorem runFlagClearedByHltAlone : Obligations.RunFlagClearedByHltAlone := by
  refine ⟨fun s t b h => step_with_run h b, fun s t hl h hrun => ?_, fun _ => rfl⟩
  have hlink := (stepEffect_of_step h).statusLink (status_running_of_step h) hl
  exact ⟨.noStepHalted, by simp [step, stepOnce, noStep, hlink.1 hrun]⟩

/-! ### Frames and moves -/

/-- Settles O31: the fault keeps `pc`, and each completed instruction moves it by its row of the table. -/
theorem pcMovesByTheTable : Obligations.PcMovesByTheTable := by
  intro s t h
  have hs := status_running_of_step h
  cases stepEffect_of_step h with
  | fault => exact ⟨fun _ => rfl, fun hok => (hok ⟨_, rfl⟩).elim⟩
  | hlt hop => exact ⟨fun _ => rfl, fun _ => by simp [hop]⟩
  | ldi hop | prn hop | mul hop | pop hop | push hop =>
    exact ⟨by simp [GoneWrong, hs], fun _ => by simp [hop, BitVec.toNat_add]⟩

/-- A register that reads differently after a write is the one written. -/
theorem eq_of_readReg_writeReg_ne {i j : RegIndex} {v : Byte} {s : State}
    (h : readReg j (writeReg i v s) ≠ readReg j s) : j = i := by
  by_contra hne
  exact h (by rw [readReg_writeReg, if_neg hne])

/-- Settles O33: only LDI, MUL and POP write the register file, and at `operand_a`. -/
theorem registersWrittenByLdiMulPop : Obligations.RegistersWrittenByLdiMulPop := by
  intro s t i h hne
  cases stepEffect_of_step h with
  | ldi hop | mul hop | pop hop =>
    obtain rfl := eq_of_readReg_writeReg_ne hne
    exact ⟨rfl, by simp [hop]⟩
  | fault | prn | hlt | push => exact (hne rfl).elim

/-- Settles O34: only PUSH and a POP off the sentinel write `sp`. -/
theorem stackPointerMovedByPushAndPop : Obligations.StackPointerMovedByPushAndPop := by
  intro s t h hne
  cases stepEffect_of_step h with
  | push hop => exact .inl ⟨hop, by simp [BitVec.toNat_sub, Nat.add_comm]⟩
  | pop hop hsp => exact .inr ⟨hop, hsp, by simp [BitVec.toNat_add]⟩
  | fault | ldi | prn | mul | hlt => exact (hne rfl).elim

/-- Settles O35: a completed PRN appends its register's byte, a PRN that faults has a bad operand, and nothing else
writes `out`. -/
theorem outputGrowsByPrnAlone : Obligations.OutputGrowsByPrnAlone := by
  intro s t h
  cases stepEffect_of_step h with
  | prn hop ha =>
    refine ⟨fun a _ haa => ?_, fun hbad => ?_⟩
    · obtain rfl : a = ⟨(operandA s).toNat, ha⟩ := Fin.ext haa.symm
      rfl
    · rcases hbad with hbad | hbad
      · exact (hbad hop).elim
      · omega
  | fault hk =>
    refine ⟨fun a hop haa => ?_, fun _ => rfl⟩
    have ha := hk.prn_operand hop
    omega
  | ldi hop | mul hop | hlt hop | pop hop | push hop =>
    exact ⟨fun _ hprn _ => by simp [hop] at hprn, fun _ => rfl⟩

end Sys2Proof.Machine
end

section
/-! PROOFS. The memory primitives, and PUSH as the only step that writes memory. -/

namespace Sys2Proof.Machine

/-- The frame of a write (R31). -/
theorem sameMemoryExcept_memWrite (a : Addr) (v : Byte) (s : State) : SameMemoryExcept a s (memWrite a v s) :=
  fun _ hne => by rw [memRead_memWrite, if_neg hne]

/-- The memory frame of PUSH's store (R116). -/
theorem sameMemoryExcept_pushByte (v : Byte) (s : State) : SameMemoryExcept s.sp s (pushByte v s) :=
  fun _ hne => by rw [memRead_pushByte, if_neg hne]

/-- Settles O11: the read of the written cell, the frame of the write, and the empty memory of reset. -/
theorem memoryPrimitives : Obligations.MemoryPrimitives := by
  refine ⟨fun s a v => ⟨?_, sameMemoryExcept_memWrite a v s, fun _ => rfl, rfl, rfl, rfl, rfl, rfl⟩, fun _ _ => rfl⟩
  rw [memRead_memWrite, if_pos rfl]

/-- Settles O32: PUSH stores at `sp` and nowhere else, every other effect of a step keeps the memory whole. -/
theorem onlyPushWritesMemory : Obligations.OnlyPushWritesMemory := by
  intro s t h
  cases stepEffect_of_step h with
  | push hop => exact ⟨sameMemoryExcept_pushByte _ s, fun hne => (hne hop).elim⟩
  | fault | ldi | prn | mul | hlt | pop => exact ⟨fun _ _ => rfl, fun _ => rfl⟩

end Sys2Proof.Machine
end

section
/-! PROOFS. The decoder and the encoder as one relation (30_encoding R51, R53 to R55): three bytes decode to an
instruction exactly when they begin with its encoding. Both directions of the round trip and the words of
the table are read off it. -/

namespace Sys2Proof

/-- The decoder is the opcode map followed by `assemble`. -/
theorem decodeWord_eq_ok_iff {op a b : Byte} {i : Instr} :
    decodeWord op a b = .ok i ↔ ∃ o, opcodeOf op = some o ∧ i = assemble o a b := by
  unfold decodeWord
  cases opcodeOf op with
  | some o => simp [eq_comm]
  | none => simp

/-- The decoder refuses an unbound opcode byte by its name, whatever follows it. -/
theorem decodeWord_of_opcodeOf_none {op : Byte} (h : opcodeOf op = none) (a b : Byte) :
    decodeWord op a b = .error (.unboundOpcode op) := by
  simp [decodeWord, h]

/-- What an opcode assembles is encoded by its opcode byte and as many of the operand bytes as it has. -/
theorem encode_assemble_prefix (o : Opcode) (a b : Byte) :
    encode (assemble o a b) <+: [(assemble o a b).opcode, a, b] := by
  cases o with
  | ldi | mul => exact List.prefix_rfl
  | prn | pop | push => exact List.prefix_append _ [b]
  | hlt => exact List.prefix_append _ [a, b]

/-- Three bytes decode to an instruction exactly when they begin with its encoding. -/
theorem decodeWord_eq_ok_iff_prefix {op a b : Byte} {i : Instr} :
    decodeWord op a b = .ok i ↔ encode i <+: [op, a, b] := by
  constructor
  · intro h
    obtain ⟨o, ho, rfl⟩ := decodeWord_eq_ok_iff.1 h
    have hprefix := encode_assemble_prefix o a b
    rwa [Machine.opcode_assemble ho] at hprefix
  · intro h
    cases i with
    | ldi | mul =>
      obtain ⟨rfl, rfl, rfl⟩ : _ ∧ _ ∧ _ := by simpa [encode, Instr.operands] using h
      rfl
    | prn | pop | push =>
      obtain ⟨rfl, rfl⟩ : _ ∧ _ := by simpa [encode, Instr.operands] using h
      rfl
    | hlt =>
      obtain rfl : _ = op := by simpa [encode, Instr.operands] using h
      rfl

/-- Every instruction has the shape of encoding that Laws/PerInstr.lean states per instruction. -/
theorem encodingShape (i : Instr) : Laws.EncodingShape.Statement i := by
  cases i with
  | ldi ra imm => exact Laws.EncodingShape.ldi ra imm
  | prn ra => exact Laws.EncodingShape.prn ra
  | mul ra rb => exact Laws.EncodingShape.mul ra rb
  | hlt => exact Laws.EncodingShape.hlt
  | pop ra => exact Laws.EncodingShape.pop ra
  | push ra => exact Laws.EncodingShape.push ra

/-- An encoding has the instruction's length (R51). -/
theorem length_encode (i : Instr) : (encode i).length = i.length := (encodingShape i).1

/-- An instruction has at least its opcode byte. -/
theorem one_le_length (i : Instr) : 1 ≤ i.length := by
  obtain ⟨-, hmin, -⟩ := encodingShape i
  exact hmin

/-- An encoding has at most three bytes (R51). -/
theorem length_encode_le (i : Instr) : (encode i).length ≤ 3 := by
  obtain ⟨hlen, -, hmax, -⟩ := encodingShape i
  exact hlen.trans_le hmax

/-- The three bytes a decoder of a list looks at are the first three of the list padded with zeros. -/
theorem three_bytes_eq_take (op : Byte) (bs : List Byte) :
    [op, bs.getD 0 0, bs.getD 1 0] = ((op :: bs) ++ [0, 0]).take 3 := by
  match bs with
  | [] | [_] | _ :: _ :: _ => rfl

/-- The padding plays no part for an encoding that is not truncated. -/
theorem encode_prefix_three_iff {op : Byte} {bs : List Byte} {i : Instr} (hlen : i.length ≤ bs.length + 1) :
    encode i <+: [op, bs.getD 0 0, bs.getD 1 0] ↔ encode i <+: op :: bs := by
  rw [three_bytes_eq_take, List.prefix_take_iff]
  constructor
  · rintro ⟨h, -⟩
    exact List.prefix_of_prefix_length_le h (List.prefix_append _ _) (by simpa [length_encode] using hlen)
  · intro h
    exact ⟨h.trans (List.prefix_append _ _), length_encode_le i⟩

/-- The decoder of a list: the three bytes decode, the instruction is not truncated, and the rest is what follows it. -/
theorem decode_cons_eq_ok_iff {op : Byte} {bs rest : List Byte} {i : Instr} :
    decode (op :: bs) = .ok (i, rest) ↔
      decodeWord op (bs.getD 0 0) (bs.getD 1 0) = .ok i ∧ i.length ≤ bs.length + 1 ∧
        bs.drop (i.length - 1) = rest := by
  simp only [decode]
  cases decodeWord op (bs.getD 0 0) (bs.getD 1 0) with
  | error e => simp
  | ok j =>
    simp only [Except.ok.injEq]
    split
    · rename_i hlen
      refine iff_of_false (by simp) ?_
      rintro ⟨rfl, hle, -⟩
      omega
    · rename_i hlen
      simp only [Except.ok.injEq, Prod.mk.injEq]
      constructor
      · rintro ⟨rfl, rfl⟩
        exact ⟨rfl, not_lt.1 hlen, rfl⟩
      · rintro ⟨rfl, -, rfl⟩
        exact ⟨rfl, rfl⟩

/-- What follows an encoding in a list is what is left after as many bytes as the instruction has. -/
theorem cons_eq_encode_append_iff {op : Byte} {bs rest : List Byte} {i : Instr} :
    op :: bs = encode i ++ rest ↔ encode i <+: op :: bs ∧ bs.drop (i.length - 1) = rest := by
  have hdrop : bs.drop (i.length - 1) = (op :: bs).drop (encode i).length := by
    rw [length_encode, List.drop_cons (one_le_length i)]
  rw [hdrop]
  constructor
  · intro h
    rw [h]
    exact ⟨List.prefix_append _ _, List.drop_left⟩
  · rintro ⟨h, rfl⟩
    exact (List.prefix_iff_eq_append.1 h).symm

/-- Decoding undoes encoding and nothing else does: the round trip in both directions. -/
theorem decode_eq_ok_iff {bs rest : List Byte} {i : Instr} :
    decode bs = .ok (i, rest) ↔ bs = encode i ++ rest := by
  cases bs with
  | nil => simp [decode, encode]
  | cons op bs =>
    rw [decode_cons_eq_ok_iff, cons_eq_encode_append_iff, decodeWord_eq_ok_iff_prefix, ← and_assoc]
    refine and_congr_left fun _ => ?_
    constructor
    · rintro ⟨h, hlen⟩
      exact (encode_prefix_three_iff hlen).1 h
    · intro h
      have hlen : i.length ≤ bs.length + 1 := by simpa [length_encode] using h.length_le
      exact ⟨(encode_prefix_three_iff hlen).2 h, hlen⟩

/-- Settles O1: an encoding followed by anything is what `decode_eq_ok_iff` says decodes to the instruction. -/
theorem decodeOfEncode : Obligations.DecodeOfEncode :=
  fun _ _ => decode_eq_ok_iff.2 rfl

/-- Settles O2: the other direction of the same equivalence. -/
theorem decodedBytesAreTheEncoding : Obligations.DecodedBytesAreTheEncoding :=
  fun _ _ _ h => decode_eq_ok_iff.1 h

/-- Settles O3: each word of S9 is, bit by bit, the encoding of its instruction (R53). -/
theorem opcodeTableWordsDecode : Obligations.OpcodeTableWordsDecode :=
  ⟨decodeOfEncode (.ldi 2 44) [], decodeOfEncode (.prn 2) [], decodeOfEncode (.mul 2 3) [],
    decodeOfEncode .hlt [], decodeOfEncode (.pop 2) [], decodeOfEncode (.push 2) []⟩

/-- The six rows of the opcode table, by the whole opcode byte (R54). -/
theorem decodeWord_eq_ok_iff_row (op a b : Byte) (i : Instr) :
    decodeWord op a b = .ok i ↔
      (op = 0x82#8 ∧ i = .ldi a b) ∨ (op = 0x47#8 ∧ i = .prn a) ∨ (op = 0xA2#8 ∧ i = .mul a b) ∨
        (op = 0x01#8 ∧ i = .hlt) ∨ (op = 0x46#8 ∧ i = .pop a) ∨ (op = 0x45#8 ∧ i = .push a) := by
  constructor
  · intro h
    obtain ⟨o, ho, rfl⟩ := decodeWord_eq_ok_iff.1 h
    rcases opcodeOf_some ho with ⟨rfl, rfl⟩ | ⟨rfl, rfl⟩ | ⟨rfl, rfl⟩ | ⟨rfl, rfl⟩ | ⟨rfl, rfl⟩ | ⟨rfl, rfl⟩ <;>
      simp [assemble]
  · rintro (⟨rfl, rfl⟩ | ⟨rfl, rfl⟩ | ⟨rfl, rfl⟩ | ⟨rfl, rfl⟩ | ⟨rfl, rfl⟩ | ⟨rfl, rfl⟩) <;> rfl

/-- The opcode byte alone gives the length (R55). -/
theorem length_of_decodeWord {op a b : Byte} {i : Instr} (h : decodeWord op a b = .ok i) :
    i.length = if op = 0x01#8 then 1 else if op = 0x82#8 ∨ op = 0xA2#8 then 3 else 2 := by
  rcases (decodeWord_eq_ok_iff_row op a b i).1 h with
    ⟨rfl, rfl⟩ | ⟨rfl, rfl⟩ | ⟨rfl, rfl⟩ | ⟨rfl, rfl⟩ | ⟨rfl, rfl⟩ | ⟨rfl, rfl⟩ <;> rfl

/-- Settles O4: the rows of the table, the length they give, and the refusal of every byte outside them. -/
theorem decodingIsExactMatch : Obligations.DecodingIsExactMatch :=
  ⟨decodeWord_eq_ok_iff_row, fun _ _ _ _ h => length_of_decodeWord h,
    fun _ a b hop => decodeWord_of_opcodeOf_none (opcodeOf_none.2 hop) a b⟩

end Sys2Proof
end

section
/-! PROOFS. What the step makes of the bytes at `pc`: an unbound opcode byte (30_encoding R56), or the bytes of an
encoding (40_dispatch R71, R74). -/

namespace Sys2Proof.Machine

/-- The five ranges of R56 hold no bound opcode byte. -/
theorem opcodeOf_eq_none_of_range {op : Byte}
    (h : op.toNat = 0x00 ∨ (0x02 ≤ op.toNat ∧ op.toNat ≤ 0x44) ∨ (0x48 ≤ op.toNat ∧ op.toNat ≤ 0x81) ∨
      (0x83 ≤ op.toNat ∧ op.toNat ≤ 0xA1) ∨ (0xA3 ≤ op.toNat ∧ op.toNat ≤ 0xFF)) : opcodeOf op = none := by
  rw [opcodeOf_none]
  intro hmem
  simp only [List.mem_cons, List.not_mem_nil, or_false] at hmem
  rcases hmem with rfl | rfl | rfl | rfl | rfl | rfl <;> simp at h

/-- Settles O5: a byte in the ranges is unbound, and the step there raises the decode error. -/
theorem unboundOpcodeRaisesDecodeError : Obligations.UnboundOpcodeRaisesDecodeError := by
  rintro s op hs rfl hrange
  exact ⟨_, step_of_opcodeOf_none hs (opcodeOf_eq_none_of_range hrange), rfl, rfl, .noStepFaulted _, rfl⟩

/-- The step of a running machine whose three bytes at `pc` decode is that instruction's meaning. -/
theorem step_of_fetchDecode_ok {s : State} {i : Instr} (hs : s.status = .running) (h : fetchDecode s = .ok i) :
    step s = exec i s := by
  simp [step_running hs, runInstruction, h]

/-- Bytes that stand one by one at `pc` and the addresses after it, three at most, begin the three bytes fetched. -/
theorem isPrefix_fetched {s : State} {l : List Byte} (hlen : l.length ≤ 3)
    (h : ∀ (k : Nat) (hk : k < l.length), memRead (s.pc + BitVec.ofNat 8 k) s = l[k]) :
    l <+: [opcodeByte s, operandA s, operandB s] := by
  refine List.prefix_iff_getElem.2 ⟨hlen, fun k hk => ?_⟩
  rw [← h k hk]
  match k, hk.trans_le hlen with
  | 0, _ => simp [opcodeByte]
  | 1, _ => rfl
  | 2, _ => rfl

/-- Settles O26: the fetched bytes begin with the encoding, so they decode to the instruction. -/
theorem stepRunsEncodedBytes : Obligations.StepRunsEncodedBytes :=
  fun _ i hs hbytes =>
    step_of_fetchDecode_ok hs (decodeWord_eq_ok_iff_prefix.2 (isPrefix_fetched (length_encode_le i) hbytes))

end Sys2Proof.Machine
end

section
/-! PROOFS. The word the opcode table numbers, placed at `pc`, as the bytes the next step fetches (40_dispatch R71 to
R74). -/

namespace Sys2Proof.Machine

/-- Settles O25: the three bytes of the statement are the bytes fetched. -/
theorem stepRunsTheDecodedInstruction : Obligations.StepRunsTheDecodedInstruction :=
  fun _ _ hs hdecode => step_of_fetchDecode_ok hs hdecode

/-- The decoder reads an instruction from a table word exactly when the word's bytes begin with its encoding. -/
theorem decodeTableWord_eq_some_iff {nbits w : Nat} {i : Instr} :
    decodeTableWord nbits w = some i ↔ encode i <+: tableBytes nbits w := by
  have hprefix : encode i <+: tableBytes nbits w ↔ ∃ rest, decode (tableBytes nbits w) = .ok (i, rest) :=
    exists_congr fun _ => eq_comm.trans decode_eq_ok_iff.symm
  rw [hprefix, decodeTableWord]
  cases decode (tableBytes nbits w) with
  | ok p => simp [Prod.ext_iff]
  | error e => simp

/-- A byte of a placed word stands as far above `pc` as in the word, past the top of memory too (D2). -/
theorem memRead_placeAtPc (s : State) (nbits w : Nat) {k : Nat} (hk : k < (tableBytes nbits w).length) :
    memRead (s.pc + BitVec.ofNat 8 k) (placeAtPc s nbits w) = (tableBytes nbits w)[k] := by
  have hk3 : k < 3 := hk
  have hoffset : (s.pc + BitVec.ofNat 8 k - s.pc).toNat = k := by
    rw [add_sub_cancel_left, BitVec.toNat_ofNat]
    omega
  have hread := Memory.read_writeList s.mem s.pc (s.pc + BitVec.ofNat 8 k) (tableBytes nbits w) (by decide : 3 ≤ 256)
  rw [hoffset, List.getD_eq_getElem _ _ hk] at hread
  exact hread

/-- Settles O27: the placed bytes begin with the encoding, and an encoding at `pc` is what O26 says runs. -/
theorem placedWordIsRunNext : Obligations.PlacedWordIsRunNext := by
  intro s nbits w i hs hword
  have hprefix := decodeTableWord_eq_some_iff.1 hword
  refine stepRunsEncodedBytes (placeAtPc s nbits w) i hs fun k hk => ?_
  have hk' := hk.trans_le hprefix.length_le
  calc memRead (s.pc + BitVec.ofNat 8 k) (placeAtPc s nbits w)
    _ = (tableBytes nbits w)[k] := memRead_placeAtPc s nbits w hk'
    _ = (encode i)[k] := (hprefix.getElem hk).symm

end Sys2Proof.Machine
end

section
/-! PROOFS. LDI with a register that exists (41_load_immediate R90), and the two rules its result rests on: the register
frame of a write and the address `pc` advances to. -/

namespace Sys2Proof.Machine

/-- The frame of a register write (R11). -/
theorem sameRegsExcept_writeReg (a : RegIndex) (v : Byte) (s : State) : SameRegsExcept a s (writeReg a v s) :=
  fun _ hne => by rw [readReg_writeReg, if_neg hne]

/-- The address `pc` advances to, past the top of memory too (R15, D2). -/
theorem advancePc_pc_toNat (n : Nat) (s : State) : (advancePc n s).pc.toNat = (s.pc.toNat + n) % 256 := by
  simp [BitVec.toNat_add]

/-- Settles O13: the state `execLdi_ok` gives is a register write and an advance of `pc`, whose frames hold the rest. -/
theorem ldiLoadsTheImmediate : Obligations.LdiLoadsTheImmediate := by
  rintro s ra imm ⟨_, hlt⟩ rfl
  exact ⟨_, execLdi_ok hlt s, readReg_writeReg_same _ imm s, sameRegsExcept_writeReg _ imm s, advancePc_pc_toNat 3 _,
    fun _ => rfl, rfl, rfl, rfl, rfl⟩

end Sys2Proof.Machine
end

section
/-! PROOFS. PRN of a register that exists (42_output R95). -/

namespace Sys2Proof.Machine

/-- Settles O14: the state `execPrn_ok` gives is an `emit` of the register's byte, which writes `out` alone, and an
advance of `pc`. -/
theorem prnEmitsTheRegister : Obligations.PrnEmitsTheRegister := by
  rintro s ra ⟨_, hlt⟩ rfl
  exact ⟨_, execPrn_ok hlt s, emit_out _ s, fun _ => rfl, advancePc_pc_toNat 2 _, fun _ => rfl, rfl, rfl, rfl⟩

end Sys2Proof.Machine
end

section
/-! PROOFS. The ALU block as arithmetic modulo 256 with its register write-back (43_alu R100 to R102), and MUL of
registers that exist (R103), which is the block's MUL and an advance of `pc`. -/

namespace Sys2Proof.Machine

/-- ADD in natural numbers (R101). -/
theorem alu_add_toNat (a b : Byte) : (alu .add a b).toNat = (a.toNat + b.toNat) % 256 := BitVec.toNat_add a b

/-- MUL in natural numbers (R102). -/
theorem alu_mul_toNat (a b : Byte) : (alu .mul a b).toNat = (a.toNat * b.toNat) % 256 := BitVec.toNat_mul a b

/-- The first register after an ALU operation: the result on the two old values, the same register twice included. -/
@[simp] theorem readReg_aluExec_same (op : AluOp) (a b : RegIndex) (s : State) :
    readReg a (aluExec op a b s) = alu op (readReg a s) (readReg b s) := readReg_writeReg_same a _ s

/-- The register frame of an ALU operation: its write-back is one register write (R100). -/
theorem sameRegsExcept_aluExec (op : AluOp) (a b : RegIndex) (s : State) : SameRegsExcept a s (aluExec op a b s) :=
  sameRegsExcept_writeReg a _ s

/-- The set of operations is closed (R100, D13). -/
theorem aluOp_eq_add_or_mul (op : AluOp) : op = .add ∨ op = .mul := by
  cases op with
  | add => exact .inl rfl
  | mul => exact .inr rfl

/-- Settles O46: the two operations, their results, and `aluExec` as a write of the first register alone. -/
theorem aluComputesModulo256 : Obligations.AluComputesModulo256 :=
  ⟨aluOp_eq_add_or_mul, fun a b => ⟨alu_add_toNat a b, alu_mul_toNat a b⟩,
    fun op a b s => ⟨readReg_aluExec_same op a b s, sameRegsExcept_aluExec op a b s, fun _ => rfl, rfl, rfl, rfl, rfl,
      rfl⟩⟩

/-- Settles O15: the state `execMul_ok` gives is the ALU's product in the first register and an advance of `pc`, whose
frames hold the rest. -/
theorem mulWritesTheProduct : Obligations.MulWritesTheProduct := by
  rintro s ra rb ⟨_, ha⟩ ⟨_, hb⟩ rfl rfl
  refine ⟨_, execMul_ok ha hb s, ?product, sameRegsExcept_aluExec .mul _ _ s, advancePc_pc_toNat 3 _, fun _ => rfl, rfl,
    rfl, rfl, rfl⟩
  case product => rw [readReg_advancePc, readReg_aluExec_same, alu_mul_toNat]

end Sys2Proof.Machine
end

section
/-! PROOFS. HLT (44_halt R110): the state it leaves, the machine that takes no further step, and the opcode byte of any
step that ends a run normally. -/

namespace Sys2Proof.Machine

/-- A machine with a reason not to step answers it as the host's stop. -/
theorem step_of_noStep {s : State} {f : Fault} (h : noStep s.status = some f) : step s = .fault f := by
  simp [step, stepOnce, h]

/-- HLT's step alone ends `Halted`: a fault ends `Faulted`, every other completed instruction keeps `Running`. -/
theorem opcodeByte_of_step_halted {s t : State} (h : step s = .next t) (ht : t.status = .halted) :
    opcodeByte s = 0x01#8 := by
  have hs := status_running_of_step h
  cases stepEffect_of_step h with
  | hlt hop => exact hop
  | fault => simp at ht
  | ldi | prn | mul | pop | push => simp [hs] at ht

/-- Settles O16: the byte bound to HLT, the state `stopLoop` writes, the stop of a halted machine, and
`opcodeByte_of_step_halted`. -/
theorem hltStopsTheLoop : Obligations.HltStopsTheLoop := by
  refine ⟨fun _ _ => decodeWord_eq_ok_iff.2 ⟨.hlt, rfl, rfl⟩, fun s => ?_, fun _ _ => opcodeByte_of_step_halted⟩
  exact ⟨stopLoop s, rfl, stopLoop_run s, stopLoop_status s, stopLoop_pc s, fun i => readReg_stopLoop i s,
    fun a => memRead_stopLoop a s, stopLoop_sp s, stopLoop_out s, rfl, .noStepHalted, step_of_noStep rfl⟩

end Sys2Proof.Machine
end

section
/-! PROOFS. The stack controller (45_stack): PUSH and POP of a register that exists (R116, R117), the popped cell and
the PUSH that overwrites it (R124), the empty stack (R118, R133), and `sp` as what no other instruction sees (R123). -/

namespace Sys2Proof.Machine

/-- PUSH moves `sp` down by one, from 0x00 to 0xFF (R44, R116). -/
theorem pushByte_sp_toNat (v : Byte) (s : State) :
    (pushByte v s).sp.toNat = if s.sp.toNat = 0 then 255 else s.sp.toNat - 1 := by
  rw [pushByte_sp]
  split <;> bv_omega

/-- The cell PUSH stores in (R116). -/
@[simp] theorem memRead_pushAddr_pushByte (v : Byte) (s : State) : memRead (pushAddr s) (pushByte v s) = v :=
  (memRead_pushByte _ v s).trans (if_pos rfl)

/-- Settles O17: the state `execPush_ok` gives is a `pushByte` of the register's byte and an advance of `pc`, whose
frames hold the rest. -/
theorem pushStoresThenDecrements : Obligations.PushStoresThenDecrements := by
  rintro s ra ⟨_, hlt⟩ rfl
  exact ⟨_, execPush_ok hlt s, memRead_pushAddr_pushByte _ s, sameMemoryExcept_pushByte _ s,
    pushByte_sp_toNat (readReg ⟨_, hlt⟩ s) s, fun _ => rfl, advancePc_pc_toNat 2 _, rfl, rfl, rfl⟩

/-- The register POP loads (R117). -/
@[simp] theorem readReg_popByte_same (a : RegIndex) (s : State) :
    readReg a (popByte a s) = memRead (popAddr s) s := readReg_writeReg_same a _ s

/-- The register frame of POP's load. -/
theorem sameRegsExcept_popByte (a : RegIndex) (s : State) : SameRegsExcept a s (popByte a s) :=
  sameRegsExcept_writeReg a _ s

/-- Settles O18: the state `execPop_ok` gives is a `popByte` and an advance of `pc`, whose frames hold the rest. -/
theorem popIncrementsThenLoads : Obligations.PopIncrementsThenLoads := by
  rintro s ra ⟨_, hlt⟩ rfl hsp
  exact ⟨_, execPop_ok hlt hsp, readReg_popByte_same _ s, BitVec.toNat_add s.sp 1#8, rfl, sameRegsExcept_popByte _ s,
    fun _ => rfl, advancePc_pc_toNat 2 _, rfl, rfl, rfl⟩

/-- Settles O38: O18 gives the memory POP keeps and leaves `sp` on the popped cell, which is where O17 says a PUSH
stores. -/
theorem popLeavesTheCell : Obligations.PopLeavesTheCell := by
  intro s t ra rb b hsp hra hrb hpop
  obtain ⟨t', hpop', -, -, htsp, -, hmem, -⟩ := popIncrementsThenLoads s ra ⟨ra.toNat, hra⟩ rfl hsp
  obtain rfl : t = t' := next_inj (hpop'.symm.trans hpop)
  obtain ⟨u, hpush, hstore, -⟩ := pushStoresThenDecrements t rb b hrb
  exact ⟨hmem, u, hpush, htsp ▸ hstore⟩

/-- The step of a running machine at a POP on the sentinel, whatever its operand (R133, D14). -/
theorem step_of_pop_empty {s : State} (hs : s.status = .running) (hop : opcodeByte s = 0x46#8)
    (hsp : s.sp = Config.spInit) : step s = .next (enterFault (.stackEmpty s.pc) s) :=
  (step_of_opcodeOf_some (o := .pop) hs (by rw [hop]; rfl)).trans (execPop_empty hsp)

/-- A step that ends in `StackEmpty` is a POP on the sentinel, whose fault names its address and writes `status`
alone. -/
theorem pop_empty_of_step_stackEmpty {s t : State} {p : Byte} (h : step s = .next t)
    (ht : t.status = .faulted (.stackEmpty p)) :
    opcodeByte s = 0x46#8 ∧ s.sp = Config.spInit ∧ p = s.pc ∧ t = enterFault (.stackEmpty p) s := by
  have hs := status_running_of_step h
  cases stepEffect_of_step h with
  | fault hk =>
    obtain rfl := Status.faulted.inj ht
    cases hk with
    | stackEmpty hop hsp => exact ⟨hop, hsp, rfl, rfl⟩
  | hlt => simp at ht
  | ldi | prn | mul | pop | push => simp [hs] at ht

/-- The words for an empty stack are the only ones fixed for a diagnostic (R141). -/
theorem eq_stackEmpty_of_fixedPhrase_ne_none {k : FaultKind} (h : fixedPhrase k ≠ none) : ∃ p, k = .stackEmpty p := by
  cases k with
  | stackEmpty p => exact ⟨p, rfl⟩
  | loadError | decodeError | aluDispatchError | registerIndexFault => exact (h rfl).elim

/-- Settles O20: `step_of_pop_empty` and its converse `pop_empty_of_step_stackEmpty`, which also gives the state
left. -/
theorem stackEmptyExactlyOnTheSentinel : Obligations.StackEmptyExactlyOnTheSentinel := by
  refine fun s t h => ⟨⟨?raised, ?raises⟩, ?left, fun k => eq_stackEmpty_of_fixedPhrase_ne_none⟩
  case raised =>
    rintro ⟨p, ht⟩
    obtain ⟨hop, hsp, -⟩ := pop_empty_of_step_stackEmpty h ht
    exact ⟨hop, hsp⟩
  case raises =>
    rintro ⟨hop, hsp⟩
    obtain rfl := next_inj ((step_of_pop_empty (status_running_of_step h) hop hsp).symm.trans h)
    exact ⟨s.pc, rfl⟩
  case left =>
    intro p ht
    obtain ⟨-, -, hp, rfl⟩ := pop_empty_of_step_stackEmpty h ht
    exact ⟨hp, rfl, fun _ => rfl, rfl, rfl⟩

/-- An instruction other than PUSH and POP neither reads nor writes `sp`: with another value it does the same and leaves
that value. -/
theorem exec_with_sp {i : Instr} {s t : State} (hpush : i.opcode ≠ 0x45#8) (hpop : i.opcode ≠ 0x46#8)
    (h : exec i s = .next t) (v : Addr) : exec i { s with sp := v } = .next { t with sp := v } := by
  cases i with
  | ldi ra imm =>
    obtain ⟨ha, rfl⟩ | ⟨ha, rfl⟩ := execLdi_next h
    · exact execLdi_ok ha _
    · exact execLdi_bad ha _
  | prn ra =>
    obtain ⟨ha, rfl⟩ | ⟨ha, rfl⟩ := execPrn_next h
    · exact execPrn_ok ha _
    · exact execPrn_bad ha _
  | mul ra rb =>
    obtain ⟨ha, hb, rfl⟩ | ⟨ha, rfl⟩ | ⟨ha, hb, rfl⟩ := execMul_next h
    · exact execMul_ok ha hb _
    · exact execMul_bad ha _
    · exact execMul_bad_second ha hb _
  | hlt =>
    obtain rfl := execHlt_next h
    rfl
  | pop => exact (hpop rfl).elim
  | push => exact (hpush rfl).elim

/-- Such an instruction leaves `sp` as it was: run on the state's own `sp`, it answers that `sp`. -/
theorem exec_sp {i : Instr} {s t : State} (hpush : i.opcode ≠ 0x45#8) (hpop : i.opcode ≠ 0x46#8)
    (h : exec i s = .next t) : t.sp = s.sp := by
  have hsame : exec i s = .next { t with sp := s.sp } := exec_with_sp hpush hpop h s.sp
  rw [next_inj (hsame.symm.trans h)]

/-- Settles O36: `exec_sp` and `exec_with_sp`. -/
theorem onlyPushAndPopSeeTheStackPointer : Obligations.OnlyPushAndPopSeeTheStackPointer :=
  fun _ _ _ v hpush hpop h => ⟨exec_sp hpush hpop h, exec_with_sp hpush hpop h v⟩

end Sys2Proof.Machine
end

section
/-! PROOFS. The faults a run can end in (60_exceptions R135) and what the host derives from them (R140): what every step
keeps holds after any number of steps, and a state that explains itself shows no ALU dispatch error. -/

namespace Sys2Proof.Machine

/-- What every step keeps holds of the state after any number of steps. -/
theorem runSteps_keeps {P : State → Prop} (hkeep : ∀ s t, P s → step s = .next t → P t) (n : Nat) {s : State}
    (h : P s) : P (runSteps n s) := by
  induction n generalizing s with
  | zero => exact h
  | succ n ih =>
    cases hstep : step s with
    | next t => exact runSteps_succ hstep ▸ ih (hkeep s t h hstep)
    | fault | refused => simpa [runSteps, hstep] using h

/-- Nothing explains an ALU dispatch error (R135). -/
theorem TerminalShown.status_ne_aluDispatchError {s : State} (h : TerminalShown s) :
    s.status ≠ .faulted .aluDispatchError := by
  intro hs
  simp [TerminalShown, hs, faultShown] at h

/-- Settles O24: a step from any state leaves one that explains itself, and along a run from any load the invariant says
the same. -/
theorem aluDispatchErrorNeverRaised : Obligations.AluDispatchErrorNeverRaised := by
  refine ⟨fun s t h => ?step, fun regs src n => ?run⟩
  case step => exact ((stepEffect_of_step h).terminalShown (status_running_of_step h)).status_ne_aluDispatchError
  case run =>
    have hload : Inv (loadSource src (State.resetWith regs)) := resetAndLoadsSatisfyTheInvariant.2 regs src
    have hrun := runSteps_keeps stepKeepsTheInvariant n hload
    exact hrun.shown.status_ne_aluDispatchError

/-- Settles O48, status by status. -/
theorem exitStatusOfAnEndedRun : Obligations.ExitStatusOfAnEndedRun := by
  intro st
  cases st with
  | running => rfl
  | halted => rfl
  | faulted k => rfl

end Sys2Proof.Machine
end

section
/-! PROOFS. When the machine steps and how a step ends: a next state while running and a stop after (40_dispatch
R70), the order of the faults (60_exceptions R137), the state a fault leaves (R138). -/

namespace Sys2Proof.Machine

/-- A running machine has a next state. -/
theorem exists_step_of_running {s : State} (hs : s.status = .running) : ∃ t, step s = .next t := by
  cases ho : opcodeOf (opcodeByte s) with
  | none => exact ⟨_, step_of_opcodeOf_none hs ho⟩
  | some o => exact step_of_opcodeOf_some hs ho ▸ exec_answers _ s

/-- A machine whose run has ended answers a stop. -/
theorem exists_stop_of_ended {s : State} (hs : Ended s) : ∃ f, step s = .fault f := by
  obtain ⟨f, hf⟩ := Option.ne_none_iff_exists'.1 (noStep_eq_none.not.2 hs)
  exact ⟨f, step_of_noStep hf⟩

/-- Settles O23: `exists_step_of_running` with its converse, and the stop `noStep` names for each terminal status. -/
theorem stepExactlyWhileRunning : Obligations.StepExactlyWhileRunning :=
  ⟨fun _ => ⟨fun ⟨_, h⟩ => status_running_of_step h, exists_step_of_running⟩,
    fun _ hs => step_of_noStep (congrArg noStep hs), fun _ _ hs => step_of_noStep (congrArg noStep hs)⟩

/-- Settles O22: of a step's effects only a fault ends in `Faulted`, and it writes `status` alone. -/
theorem faultsArePrecise : Obligations.FaultsArePrecise := by
  intro s t k h ht
  have hs := status_running_of_step h
  refine ⟨hs, ?_⟩
  cases stepEffect_of_step h with
  | fault =>
    obtain rfl := Status.faulted.inj ht
    rfl
  | hlt => simp at ht
  | ldi | prn | mul | pop | push => simp [hs] at ht

/-- Settles O21: each effect of a step carries the guards that select its branch of the priority. -/
theorem statusFollowsFaultPriority : Obligations.StatusFollowsFaultPriority := by
  intro s t h
  have hs := status_running_of_step h
  cases stepEffect_of_step h with
  | fault hk =>
    cases hk with
    | decode hop => rw [if_pos (opcodeOf_none.1 hop)]; rfl
    | stackEmpty hop hsp => simp [hop, hsp, Config.spInit]
    | firstOperand hop hsp ha =>
      simp only [List.mem_cons, List.not_mem_nil, or_false] at hop
      rcases hop with hop | hop | hop | hop | hop <;> simp_all [Nat.succ_le_iff, Config.spInit]
    | secondOperand hop ha hb => simp [hop, (Nat.le_of_lt_succ ha).not_gt, Nat.lt_of_succ_le hb]
  | hlt hop => simp [hop]
  | ldi hop ha | prn hop ha | push hop ha => simp [hop, hs, (Nat.le_of_lt_succ ha).not_gt]
  | mul hop ha hb => simp [hop, hs, (Nat.le_of_lt_succ ha).not_gt, (Nat.le_of_lt_succ hb).not_gt]
  | pop hop hsp ha => simp_all [(Nat.le_of_lt_succ ha).not_gt, Config.spInit]

end Sys2Proof.Machine
end

section
/-! PROOFS. `pc`, `sp` and `run` after a step, from the `status` it leaves and the bytes it fetches: why registers and
output never steer the machine (40_dispatch R82), and by how much `pc` advances, which bounds a wrap-free run (10_state
section 2, 70_reset R169). -/

namespace Sys2Proof.Machine

/-- `pc` moves by the step's advance (R14). -/
theorem step_pc {s t : State} (h : step s = .next t) : t.pc = s.pc + BitVec.ofNat 8 (advanceOf s) := by
  have hs := status_running_of_step h
  rw [advanceOf_next h, bytesAtPc_eq]
  cases stepEffect_of_step h with
  | fault | hlt => simp
  | ldi hop | prn hop | mul hop | pop hop | push hop => simp [hs, hop]

/-- The same in numbers, past the top of memory too (R15, D2). -/
theorem step_pc_toNat {s t : State} (h : step s = .next t) : t.pc.toNat = (s.pc.toNat + advanceOf s) % 256 := by
  rw [step_pc h]
  exact advancePc_pc_toNat _ s

/-- `sp` moves down in a completed PUSH and up in a completed POP (R16). -/
theorem step_sp {s t : State} (h : step s = .next t) :
    t.sp =
      if t.status = .running ∧ opcodeByte s = 0x45#8 then s.sp - 1#8
      else if t.status = .running ∧ opcodeByte s = 0x46#8 then s.sp + 1#8
      else s.sp := by
  have hs := status_running_of_step h
  cases stepEffect_of_step h with
  | fault | hlt => simp
  | ldi hop | prn hop | mul hop | pop hop | push hop => simp [hs, hop]

/-- `run` is cleared by the step that ends `Halted` (R18). -/
theorem step_run {s t : State} (h : step s = .next t) : t.run = if t.status = .halted then false else s.run := by
  have hs := status_running_of_step h
  cases stepEffect_of_step h with
  | fault | hlt => simp
  | ldi | prn | mul | pop | push => simp [hs]

/-- Settles O37: `status` by O21's priority, then `pc`, `sp` and `run` by it and by bytes of memory, where neither
registers nor output occur. -/
theorem registersNeverSteer : Obligations.RegistersNeverSteer := by
  intro s t t' regs out h h'
  have hstatus : t'.status = t.status :=
    (statusFollowsFaultPriority _ _ h').trans (statusFollowsFaultPriority s t h).symm
  have hadvance : advanceOf { s with x := regs, out := out } = advanceOf s := by
    rw [advanceOf_next h, advanceOf_next h', hstatus]
    rfl
  refine ⟨?pc, ?sp, ?run, hstatus⟩
  case pc => rw [step_pc h, step_pc h', hadvance]
  case sp => rw [step_sp h, step_sp h', hstatus]; rfl
  case run => rw [step_run h, step_run h', hstatus]

/-- A step that halts or faults advances by nothing (R14). -/
theorem advanceOf_of_ended {s t : State} (h : step s = .next t) (ht : Ended t) : advanceOf s = 0 := by
  rw [advanceOf_next h, if_neg ht]

/-- A step advances by at most the bytes of its instruction. -/
theorem advanceOf_le {s t : State} (h : step s = .next t) : advanceOf s ≤ bytesAtPc s := by
  rw [advanceOf_next h]
  split
  · exact le_rfl
  · exact Nat.zero_le _

/-- A wrap-free step moves `pc` without `mod 256`. -/
theorem pc_toNat_of_wrapFree {s t : State} (h : step s = .next t) (hw : WrapFree s) :
    t.pc.toNat = s.pc.toNat + advanceOf s := by
  obtain ⟨-, hadvance⟩ := hw (status_running_of_step h)
  rw [step_pc_toNat h, Nat.mod_eq_of_lt (Nat.lt_succ_of_le hadvance)]

/-- Settles O50: the bytes the opcode gives are `bytesAtPc_eq`'s, and an advance of at most that many makes `pc` smaller
exactly when it takes it past 0xFF. -/
theorem wrapFreeStepsNeverWrap : Obligations.WrapFreeStepsNeverWrap := by
  intro s t h
  refine ⟨?_, pc_toNat_of_wrapFree h, advanceOf_of_ended h⟩
  have hs := status_running_of_step h
  have hpc := step_pc_toNat h
  have hle := advanceOf_le h
  have hbytes := bytesAtPc_eq s
  have hlt := s.pc.isLt
  simp only [WrapFree, hs, true_imp_iff]
  split_ifs at hbytes ⊢ <;> omega

/-- A step after which the machine still runs executed an instruction of at least two bytes. -/
theorem two_le_bytesAtPc {s t : State} (h : step s = .next t) (ht : t.status = .running) : 2 ≤ bytesAtPc s := by
  rw [bytesAtPc_eq]
  cases stepEffect_of_step h with
  | fault | hlt => simp at ht
  | ldi hop | prn hop | mul hop | pop hop | push hop => simp [hop]

/-- An ended run stays where it is. -/
theorem runSteps_of_ended {s : State} (hs : Ended s) (n : Nat) : runSteps n s = s := by
  obtain ⟨f, hf⟩ := exists_stop_of_ended hs
  cases n <;> simp [runSteps, hf]

/-- A wrap-free run has ended or moved `pc` up by two a step. -/
theorem ended_or_pc_climbs (n : Nat) {s : State} (hw : ∀ k < n, WrapFree (runSteps k s)) :
    Ended (runSteps n s) ∨ s.pc.toNat + 2 * n ≤ (runSteps n s).pc.toNat := by
  induction n generalizing s with
  | zero => exact .inr le_rfl
  | succ n ih =>
    by_cases hs : s.status = .running
    case neg => exact .inl ((runSteps_of_ended hs _).symm ▸ hs)
    obtain ⟨t, h⟩ := exists_step_of_running hs
    rw [runSteps_succ h]
    by_cases ht : t.status = .running
    case neg => exact .inl ((runSteps_of_ended ht _).symm ▸ ht)
    refine (ih fun k hk => ?_).imp_right fun hclimb => ?_
    · exact runSteps_succ h ▸ hw (k + 1) (by omega)
    · have hpc := pc_toNat_of_wrapFree h (hw 0 (by omega))
      have hadvance : advanceOf s = bytesAtPc s := by rw [advanceOf_next h, if_pos ht]
      have hbytes := two_le_bytesAtPc h ht
      omega

/-- Settles O45: 128 steps of two bytes each would take `pc` past 0xFF. -/
theorem wrapFreeRunEndsWithin128Steps : Obligations.WrapFreeRunEndsWithin128Steps := by
  intro s _ hw
  refine (ended_or_pc_climbs 128 hw).resolve_right fun hclimb => ?_
  have hlt := (runSteps 128 s).pc.isLt
  omega

end Sys2Proof.Machine
end

section
/-! PROOFS. The machine as a refinement of the pseudocode (40_dispatch R71, Reference.lean): `toRef` takes each shared
operation to the update the pseudocode writes for it, and so each effect of a step to what the handler of its opcode
answers. -/

namespace Sys2Proof.Machine

open Sys2Proof.Reference

/-! ### The coupling, operation by operation -/

@[simp] theorem toRef_pc (s : State) : (toRef s).pc = s.pc.toNat := rfl
@[simp] theorem toRef_sp (s : State) : (toRef s).sp = s.sp.toNat := rfl

/-- A cell in numbers. -/
@[simp] theorem toRef_mem_toNat (s : State) (a : Addr) : (toRef s).mem a.toNat = (memRead a s).toNat := by
  simp [toRef, a.isLt]

/-- The cell `n` above an address, in numbers, past the top of memory too (D2, D3). -/
@[simp] theorem toRef_mem_add (s : State) (a : Addr) (n : Nat) :
    (toRef s).mem ((a.toNat + n) % 256) = (memRead (a + BitVec.ofNat 8 n) s).toNat := by
  rw [← toRef_mem_toNat, BitVec.toNat_add, BitVec.toNat_ofNat]
  simp

/-- A register in numbers. -/
@[simp] theorem toRef_x_val (s : State) (i : Nat) (hi : i < 8) : (toRef s).x i = (readReg ⟨i, hi⟩ s).toNat :=
  dif_pos hi

/-- A register write is the pseudocode's update (R10). -/
@[simp] theorem toRef_writeReg (i : RegIndex) (v : Byte) (s : State) :
    toRef (writeReg i v s) = { toRef s with x := update (toRef s).x i.val v.toNat } := by
  have hx : (toRef (writeReg i v s)).x = update (toRef s).x i.val v.toNat := by
    funext n
    by_cases hn : n < 8
    · by_cases hi : n = i.val <;> simp [toRef, update, readReg_writeReg, hn, hi, Fin.ext_iff]
    · have hi : n ≠ i.val := by omega
      simp [toRef, update, hn, hi]
  rw [← hx]
  rfl

/-- A memory write is the pseudocode's update (R31). -/
@[simp] theorem toRef_memWrite (a : Addr) (v : Byte) (s : State) :
    toRef (memWrite a v s) = { toRef s with mem := update (toRef s).mem a.toNat v.toNat } := by
  have hmem : (toRef (memWrite a v s)).mem = update (toRef s).mem a.toNat v.toNat := by
    funext n
    by_cases hn : n < 256
    · have ha : BitVec.ofNat 8 n = a ↔ n = a.toNat := by
        rw [← BitVec.toNat_inj, BitVec.toNat_ofNat, Nat.mod_eq_of_lt hn]
      simp only [toRef, update, memRead_memWrite, ha, if_pos hn]
      split <;> rfl
    · have ha : n ≠ a.toNat := by omega
      simp [toRef, update, hn, ha]
  rw [← hmem]
  rfl

/-- `pc` moves as the pseudocode adds (R14, R15). -/
@[simp] theorem toRef_advancePc (n : Nat) (s : State) :
    toRef (advancePc n s) = { toRef s with pc := (s.pc.toNat + n) % 256 } := by
  rw [← advancePc_pc_toNat]
  rfl

/-- `Emit` appends (R21). -/
@[simp] theorem toRef_emit (v : Byte) (s : State) :
    toRef (emit v s) = { toRef s with out := (toRef s).out ++ [v.toNat] } := by
  simp [toRef]

/-- HLT's writes are the pseudocode's (R110). -/
@[simp] theorem toRef_stopLoop (s : State) :
    toRef (stopLoop s) = { toRef s with run := false, status := .halted } := rfl

/-- MUL's product is the pseudocode's (R102, R103). -/
@[simp] theorem toRef_aluExec_mul (a b : RegIndex) (s : State) :
    toRef (aluExec .mul a b s) =
      { toRef s with x := update (toRef s).x a.val ((readReg a s).toNat * (readReg b s).toNat % 256) } := by
  rw [← alu_mul_toNat]
  exact toRef_writeReg a _ s

/-- POP's load and its move of `sp` (R117, D3). -/
@[simp] theorem toRef_popByte (a : RegIndex) (s : State) :
    toRef (popByte a s) =
      { toRef s with
        x := update (toRef s).x a.val (memRead (s.sp + 1#8) s).toNat, sp := (s.sp.toNat + 1) % 256 } := by
  have hsp : (s.sp.toNat + 1) % 256 = (popAddr s).toNat := (BitVec.toNat_add s.sp 1#8).symm
  rw [hsp]
  exact congrArg (fun r : RefState => { r with sp := (popAddr s).toNat }) (toRef_writeReg a (topByte s) s)

/-- PUSH's store and its move of `sp` (R116). -/
@[simp] theorem toRef_pushByte (v : Byte) (s : State) :
    toRef (pushByte v s) =
      { toRef s with
        mem := update (toRef s).mem s.sp.toNat v.toNat, sp := (s.sp.toNat + 255) % 256 } := by
  have hsp : (s.sp.toNat + 255) % 256 = (s.sp - 1#8).toNat := by
    rw [BitVec.toNat_sub, Nat.add_comm]
    rfl
  rw [hsp]
  exact congrArg (fun r : RefState => { r with sp := (s.sp - 1#8).toNat }) (toRef_memWrite s.sp v s)

/-- The pseudocode's register check lets a byte up to 7 go on. -/
theorem refCheckReg_of_lt {i : Nat} (h : i < 8) (r rest : RefState) : refCheckReg r i rest = rest :=
  if_neg (by omega)

/-- The pseudocode's register check faults on a byte above 7. -/
theorem refCheckReg_of_ge {i : Nat} (h : 8 ≤ i) (r rest : RefState) : refCheckReg r i rest = refFault r 5 [r.pc, i] :=
  if_pos h

/-! ### The step -/

/-- The pseudocode's handler on the numbers of the bytes fetched at `s`. -/
def handlerAt (s : State) : RefState := handler (toRef s) (opcodeByte s).toNat (operandA s).toNat (operandB s).toNat

/-- Only `Running` is read as the pseudocode's. -/
theorem toRefStatus_eq_running {st : Status} : toRefStatus st = .running ↔ st = .running := by
  cases st with
  | running => simp [toRefStatus]
  | halted => simp [toRefStatus]
  | faulted k => cases k <;> simp [toRefStatus]

/-- The pseudocode's step of a running machine is the handler on the bytes the machine fetches. -/
theorem refStep_toRef {s : State} (hs : s.status = .running) : refStep (toRef s) = some (handlerAt s) := by
  have hrun : (toRef s).status = .running := toRefStatus_eq_running.2 hs
  rw [refStep, if_pos hrun, toRef_pc, toRef_mem_toNat, toRef_mem_add, toRef_mem_add]
  rfl

/-- The pseudocode has no step outside `Running` (R70). -/
theorem refStep_toRef_of_ended {s : State} (hs : Ended s) : refStep (toRef s) = none :=
  if_neg (toRefStatus_eq_running.not.2 hs)

/-- The pseudocode's empty-stack test is the machine's (R118). -/
theorem sp_toNat_eq_iff (s : State) : s.sp.toNat = 0xF4 ↔ s.sp = Config.spInit :=
  BitVec.toNat_inj (y := Config.spInit)

/-- Each fault is the one the handler raises, with its code and numbers (R137, R138). -/
theorem StepFault.toRef_eq {s : State} {k : FaultKind} (h : StepFault s k) : toRef (enterFault k s) = handlerAt s := by
  suffices hraise : handlerAt s = { toRef s with status := toRefStatus (.faulted k) } from hraise.symm
  cases h with
  | decode hop =>
    have hunbound := opcodeOf_none.1 hop
    simp only [List.mem_cons, List.not_mem_nil, or_false, not_or, BitVec.toNat_eq, BitVec.toNat_ofNat] at hunbound
    simp [handlerAt, handler, hunbound, refFault, toRefStatus]
  | stackEmpty hop hsp => simp [handlerAt, handler, hop, (sp_toNat_eq_iff s).2 hsp, refFault, toRefStatus]
  | firstOperand hop hsp ha =>
    have hoff : opcodeByte s = 0x46#8 → s.sp.toNat ≠ 0xF4 := fun hpop => (sp_toNat_eq_iff s).not.2 (hsp hpop)
    simp only [List.mem_cons, List.not_mem_nil, or_false] at hop
    rcases hop with hop | hop | hop | hop | hop <;>
      simp [handlerAt, handler, hop, hoff, refCheckReg_of_ge ha, refFault, toRefStatus]
  | secondOperand hop ha hb =>
    simp [handlerAt, handler, hop, refCheckReg_of_lt ha, refCheckReg_of_ge hb, refFault, toRefStatus]

/-- The state a step leaves is the one the handler gives. -/
theorem StepEffect.toRef_eq {s t : State} (h : StepEffect s t) : toRef t = handlerAt s := by
  cases h with
  | fault hk => exact hk.toRef_eq
  | hlt hop => simp [handlerAt, handler, hop]
  | ldi hop ha | prn hop ha | push hop ha => simp [handlerAt, handler, hop, refCheckReg_of_lt ha, ha]
  | mul hop ha hb => simp [handlerAt, handler, hop, refCheckReg_of_lt ha, refCheckReg_of_lt hb, ha, hb]
  | pop hop hsp ha => simp [handlerAt, handler, hop, (sp_toNat_eq_iff s).not.2 hsp, refCheckReg_of_lt ha]

/-- Settles O28: a running machine's step has one of the effects, each the handler's answer, and neither side steps once
the run has ended. -/
theorem stepRefinesThePseudocode : Obligations.StepRefinesThePseudocode := by
  intro s
  by_cases hs : s.status = .running
  · obtain ⟨t, h⟩ := exists_step_of_running hs
    rw [h, refStep_toRef hs, ← (stepEffect_of_step h).toRef_eq]
  · obtain ⟨f, h⟩ := exists_stop_of_ended hs
    rw [h, refStep_toRef_of_ended hs]

end Sys2Proof.Machine
end

section
/-! PROOFS. The image text a loader reads (30_encoding R61): the line of a byte read back, and what a line's comment and
its first character decide. -/

namespace Sys2Proof.Machine

/-- A line splits off at its end. -/
theorem linesFrom_append_newline (done line text : List Char) (h : '\n' ∉ line) :
    linesFrom done (line ++ '\n' :: text) = (done ++ line) :: linesFrom [] text := by
  induction line generalizing done with
  | nil => simp [linesFrom]
  | cons c cs ih =>
    have hc : c ≠ '\n' := fun hc => h (by simp [hc])
    have hcs : '\n' ∉ cs := fun hcs => h (by simp [hcs])
    simp [linesFrom, hc, ih _ hcs]

/-- A character that is no white space ends a trimmed text. -/
theorem trimEnd_concat {c : Char} (hc : isBlank c = false) (cs : List Char) : trimEnd (cs ++ [c]) = cs ++ [c] :=
  List.rdropWhile_concat_neg isBlank cs c (by simp [hc])

/-- What stands before a comment is what stands before any comment. -/
theorem takeWhile_append_comment {line : List Char} (h : '#' ∉ line) (comment : List Char) :
    (line ++ '#' :: comment).takeWhile (fun c => c ≠ '#') = line.takeWhile (fun c => c ≠ '#') := by
  have hline : ∀ c ∈ line, decide (c ≠ '#') = true := fun c hc => decide_eq_true fun hhash => h (hhash ▸ hc)
  rw [List.takeWhile_append_of_pos hline, List.takeWhile_cons_of_neg (by simp), List.append_nil,
    List.takeWhile_eq_self_iff.2 hline]

/-- A comment plays no part in the byte of a line. -/
theorem lineByte_append_comment {line : List Char} (h : '#' ∉ line) (comment : List Char) :
    lineByte (line ++ '#' :: comment) = lineByte line := by
  simp only [lineByte, takeWhile_append_comment h]

/-- What follows a relevant line's characters leaves it relevant. -/
theorem lineRelevant_append {line : List Char} (h : lineRelevant line = true) (cs : List Char) :
    lineRelevant (line ++ cs) = true := by
  cases line with
  | nil => simp [lineRelevant] at h
  | cons => exact h

/-- A relevant line gives its byte, or its error, before the lines after it. -/
theorem imageOfLines_relevant {line : List Char} (h : lineRelevant line = true) (lines : List (List Char)) :
    imageOfLines (line :: lines) = (lineByte line).bind fun v => (imageOfLines lines).map (v :: ·) := by
  simp only [imageOfLines, h, if_true]
  cases lineByte line with
  | error => rfl
  | ok v => cases imageOfLines lines <;> rfl

/-- A line that is not relevant is ignored. -/
theorem imageOfLines_irrelevant {line : List Char} (h : lineRelevant line = false) (lines : List (List Char)) :
    imageOfLines (line :: lines) = imageOfLines lines := by
  simp [imageOfLines, h]

/-- A line that begins with neither digit is not relevant (D15). -/
theorem lineRelevant_eq_false {line : List Char} (h0 : line.head? ≠ some '0') (h1 : line.head? ≠ some '1') :
    lineRelevant line = false := by
  cases line with
  | nil => rfl
  | cons c cs => simp_all [lineRelevant]

/-- Settles O10: a line is used through `lineRelevant` and `lineByte` alone. -/
theorem commentsAndOtherLinesIgnored : Obligations.CommentsAndOtherLinesIgnored := by
  refine ⟨fun line comment lines hline hrel => ?_, fun _ lines h0 h1 => ?_⟩
  · rw [imageOfLines_relevant (lineRelevant_append hrel _), imageOfLines_relevant hrel, lineByte_append_comment hline]
  · exact imageOfLines_irrelevant (lineRelevant_eq_false h0 h1) lines

/-! ### The line of a byte -/

/-- A bit's digit is read as the bit. -/
@[simp] theorem bitOf_bitChar (b : Bool) : bitOf (bitChar b) = some b.toNat := by
  cases b <;> rfl

/-- A bit's digit ends no line. -/
theorem bitChar_ne_newline (b : Bool) : bitChar b ≠ '\n' := by
  cases b <;> decide

/-- A bit's digit begins no comment. -/
theorem bitChar_ne_hash (b : Bool) : bitChar b ≠ '#' := by
  cases b <;> decide

/-- A bit's digit is not trimmed. -/
theorem isBlank_bitChar (b : Bool) : isBlank (bitChar b) = false := by
  cases b <;> decide

/-- Every character of a byte's line is a bit's digit. -/
theorem eq_bitChar_of_mem_binaryText {v : Byte} {c : Char} (h : c ∈ binaryText v) : ∃ b, c = bitChar b := by
  simp only [binaryText, List.mem_cons, List.not_mem_nil, or_false] at h
  rcases h with h | h | h | h | h | h | h | h <;> exact ⟨_, h⟩

/-- Reading bit `k` of `v` goes from the bits above it to the bits from it on. -/
theorem binaryFrom_bitChar (v : Byte) (k : Nat) (cs : List Char) :
    binaryFrom (v.toNat / 2 ^ (k + 1)) (bitChar (v.getLsbD k) :: cs) = binaryFrom (v.toNat / 2 ^ k) cs := by
  have hbits : 2 * (v.toNat / 2 ^ (k + 1)) + v.toNat / 2 ^ k % 2 = v.toNat / 2 ^ k := by
    rw [pow_succ, ← Nat.div_div_eq_div_mul, Nat.div_add_mod]
  simp only [binaryFrom, bitOf_bitChar, BitVec.getLsbD, Nat.toNat_testBit, hbits]

/-- The eight digits of a byte are read as its number. -/
theorem binaryFrom_binaryText (v : Byte) : binaryFrom 0 (binaryText v) = some v.toNat := by
  have hnone : 0 = v.toNat / 2 ^ (7 + 1) := (Nat.div_eq_of_lt v.isLt).symm
  rw [hnone]
  simp only [binaryText, binaryFrom_bitChar]
  simp [binaryFrom]

/-- The line of a byte begins with a digit. -/
theorem lineRelevant_binaryText (v : Byte) : lineRelevant (binaryText v) = true := by
  simp only [binaryText, lineRelevant]
  cases v.getLsbD 7 <;> rfl

/-- The line of a byte has no comment and no white space at its end, and gives the byte. -/
theorem lineByte_binaryText (v : Byte) : lineByte (binaryText v) = .ok v := by
  have hcomment : (binaryText v).takeWhile (fun c => c ≠ '#') = binaryText v := by
    refine List.takeWhile_eq_self_iff.2 fun c hc => ?_
    obtain ⟨b, rfl⟩ := eq_bitChar_of_mem_binaryText hc
    simp [bitChar_ne_hash]
  have htrim : trimEnd (binaryText v) = binaryText v :=
    trimEnd_concat (isBlank_bitChar _) ((binaryText v).take 7)
  have hmax : v.toNat ≤ 255 := Nat.le_of_lt_succ v.isLt
  simp only [lineByte, hcomment, htrim, binaryFrom_binaryText, if_pos hmax, BitVec.ofNat_toNat, BitVec.setWidth_eq]

/-- The text of an image is one line a byte, and after the last line end an empty one. -/
theorem linesFrom_textOfImage (image : List Byte) :
    linesFrom [] (textOfImage image) = image.map binaryText ++ [[]] := by
  induction image with
  | nil => rfl
  | cons v vs ih =>
    have hline : '\n' ∉ binaryText v := fun h =>
      let ⟨b, hb⟩ := eq_bitChar_of_mem_binaryText h
      bitChar_ne_newline b hb.symm
    rw [textOfImage, linesFrom_append_newline [] _ _ hline, ih]
    rfl

/-- Settles O9: line by line, each read back as its byte. -/
theorem imageTextRoundTrip : Obligations.ImageTextRoundTrip := by
  intro image
  rw [imageOfText, linesFrom_textOfImage]
  induction image with
  | nil => rfl
  | cons v vs ih =>
    rw [List.map_cons, List.cons_append, imageOfLines_relevant (lineRelevant_binaryText v), lineByte_binaryText, ih]
    rfl

end Sys2Proof.Machine
end

section
/-! PROOFS. The canonical form of memory (`Memory.wf`, log 12): its cells are exactly the addresses that read as another
byte than reset leaves, so a canonical list is known by its reads. -/

namespace Sys2Proof.Machine

/-- An address listed in rising order reads as the byte listed. -/
theorem Memory.cellAt_of_mem {m : Memory} (h : m.Pairwise fun c d => c.1 < d.1) {c : Host.Cell} (hc : c ∈ m) :
    Memory.cellAt m c.1 = c.2 := by
  induction m with
  | nil => simp at hc
  | cons d m ih =>
    obtain ⟨hlt, htail⟩ := List.pairwise_cons.1 h
    rcases List.mem_cons.1 hc with rfl | hc
    · simp [Memory.cellAt]
    · simp [Memory.cellAt, (hlt c hc).ne, ih htail hc]

/-- An address that reads as another byte than reset leaves is listed with that byte. -/
theorem Memory.mem_of_cellAt_ne {m : Memory} {a : Nat} (h : Memory.cellAt m a ≠ Config.memInit) :
    (a, Memory.cellAt m a) ∈ m := by
  induction m with
  | nil => exact (h rfl).elim
  | cons d m ih =>
    by_cases hd : d.1 = a
    · subst hd
      simp [Memory.cellAt]
    · simp only [Memory.cellAt, if_neg hd] at h ⊢
      exact List.mem_cons_of_mem _ (ih h)

/-- The cells of a canonical memory, by what its addresses read as. -/
theorem Memory.mem_iff_read {m : Memory} (h : m.wf) (c : Host.Cell) :
    c ∈ m ↔ c.2 ≠ Config.memInit ∧ ∃ a : Addr, c = (a.toNat, m.read a) := by
  obtain ⟨hsorted, hcells⟩ := h
  constructor
  · intro hc
    obtain ⟨hlt, hne⟩ := hcells c hc
    have ha : (BitVec.ofNat 8 c.1).toNat = c.1 := Nat.mod_eq_of_lt hlt
    exact ⟨hne, BitVec.ofNat 8 c.1, by rw [Memory.read, ha, Memory.cellAt_of_mem hsorted hc]⟩
  · rintro ⟨hne, a, rfl⟩
    exact Memory.mem_of_cellAt_ne hne

/-- Settles O12: two lists in rising order with the same cells are equal. -/
theorem equalMemoriesAreEqualData : Obligations.EqualMemoriesAreEqualData := by
  intro m n hm hn hread
  have hcells (c : Host.Cell) : c ∈ m ↔ c ∈ n := by
    simp only [Memory.mem_iff_read hm, Memory.mem_iff_read hn, hread]
  have : Std.Irrefl fun c d : Host.Cell => c.1 < d.1 := ⟨fun _ => lt_irrefl _⟩
  have : Std.Antisymm fun c d : Host.Cell => c.1 < d.1 := ⟨fun _ _ h h' => (lt_asymm h h').elim⟩
  exact hm.1.eq_of_mem_iff hn.1 hcells

end Sys2Proof.Machine
end

section
/-! PROOFS. Pushes and pops one after another (45_stack section 3): a PUSH that overwrites code, the round trip of R119,
the aliased sentinel of R122, the walk of `sp` (R121) and the reverse order in which pops return the bytes. -/

namespace Sys2Proof.Machine

/-- PUSH of a register by the byte that names it. -/
theorem exec_push {ra : Byte} {a : RegIndex} (h : ra.toNat = a.val) (s : State) :
    exec (.push ra) s = .next (advancePc 2 (pushByte (readReg a s) s)) := by
  obtain ⟨_, hlt⟩ := a
  subst h
  exact execPush_ok hlt s

/-- POP to a register by the byte that names it, off the sentinel. -/
theorem exec_pop {ra : Byte} {a : RegIndex} (h : ra.toNat = a.val) {s : State} (hsp : s.sp ≠ Config.spInit) :
    exec (.pop ra) s = .next (advancePc 2 (popByte a s)) := by
  obtain ⟨_, hlt⟩ := a
  subst h
  exact execPop_ok hlt hsp

/-- The operand byte of a register names it (R58). -/
theorem regByte_toNat (i : RegIndex) : (regByte i).toNat = i.val :=
  Nat.mod_eq_of_lt (i.isLt.trans (by decide))

/-- Instructions one after another: the first, then the others. -/
theorem execAll_cons {i : Instr} {s t : State} (h : exec i s = .next t) (is : List Instr) :
    execAll (i :: is) s = execAll is t := by
  simp [execAll, h]

/-- Two lists of instructions one after the other. -/
theorem execAll_append {is : List Instr} {s t : State} (h : execAll is s = .next t) (js : List Instr) :
    execAll (is ++ js) s = execAll js t := by
  induction is generalizing s with
  | nil =>
    obtain rfl := next_inj h
    rfl
  | cons i is ih =>
    obtain ⟨u, hu⟩ := exec_answers i s
    rw [execAll_cons hu] at h
    rw [List.cons_append, execAll_cons hu, ih h]

/-- Settles O29: the cell a PUSH stores in is the next opcode's in the first clause; in the second the step has fetched
its own bytes before the store. -/
theorem pushedByteIsFetchedAsStored : Obligations.PushedByteIsFetchedAsStored := by
  refine ⟨fun s t ra a hra hsp h => ?next, fun s a hs hop ha _ => ?own⟩
  case next =>
    obtain rfl := next_inj ((exec_push hra s).symm.trans h)
    calc memRead (s.pc + 2#8) (pushByte (readReg a s) s)
      _ = memRead (pushAddr s) (pushByte (readReg a s) s) := by rw [← hsp]; rfl
      _ = readReg a s := memRead_pushAddr_pushByte _ s
  case own =>
    have hpush : opcodeOf (opcodeByte s) = some .push := by rw [hop]; rfl
    exact ⟨_, (step_of_opcodeOf_some hs hpush).trans (exec_push ha s), memRead_pushAddr_pushByte _ s⟩

/-- Settles O40: the PUSH leaves `sp` on the sentinel. -/
theorem pushToTheSentinelLooksEmpty : Obligations.PushToTheSentinelLooksEmpty := by
  intro s ra rb hra hsp
  refine ⟨_, execPush_ok hra s, execPop_empty ?_⟩
  rw [advancePc_sp, pushByte_sp, hsp]
  rfl

/-- Settles O39: POP loads the cell PUSH stored in, so the one register it writes gets its own byte back. -/
theorem pushThenPopRestores : Obligations.PushThenPopRestores := by
  intro s ra a hra hsp
  have hoff : s.sp - 1#8 ≠ Config.spInit := fun h => hsp (by rw [← sub_add_cancel s.sp 1#8, h]; rfl)
  refine ⟨_, (execAll_cons (exec_push hra s) _).trans (execAll_cons (exec_pop hra hoff) _), fun i => ?regs,
    sub_add_cancel s.sp 1#8, memRead_pushAddr_pushByte _ s⟩
  case regs =>
    rw [readReg_advancePc, readReg_popByte]
    split
    · next hi => simp [hi, memRead_pushByte]
    · rfl

/-! ### The walk of `sp` -/

/-- The cells below an address, counted from the next one down. -/
theorem sub_one_sub_ofNat (a : Addr) (k : Nat) : a - 1#8 - BitVec.ofNat 8 k = a - BitVec.ofNat 8 (k + 1) := by
  rw [BitVec.ofNat_add, sub_sub, add_comm]

/-- The cells above an address, counted from the next one up. -/
theorem add_one_add_ofNat (a : Addr) (k : Nat) : a + 1#8 + BitVec.ofNat 8 k = a + BitVec.ofNat 8 (k + 1) := by
  rw [BitVec.ofNat_add, add_assoc, add_comm (BitVec.ofNat 8 k)]

/-- The first 255 cells below an address are other cells. -/
theorem ne_sub_ofNat (a : Addr) {k : Nat} (h0 : 0 < k) (h : k < 256) : a ≠ a - BitVec.ofNat 8 k := by
  bv_omega

/-- Settles O41: by induction on the list; the cell of the first push lies outside those of the pushes after it. -/
theorem pushesWalkDown : Obligations.PushesWalkDown := by
  intro rs
  induction rs with
  | nil => exact fun s => ⟨s, rfl, by simp, fun _ => rfl, rfl, rfl, by simp, fun _ _ => rfl⟩
  | cons r rs ih =>
    intro s
    obtain ⟨t, hrun, hsp, hregs, hout, hstatus, hcells, hframe⟩ := ih (advancePc 2 (pushByte (readReg r s) s))
    simp only [advancePc_sp, pushByte_sp, sub_one_sub_ofNat, memRead_advancePc] at hsp hcells hframe
    refine ⟨t, (execAll_cons (exec_push (regByte_toNat r) s) _).trans hrun, hsp, hregs, hout, hstatus, ?cells,
      ?frame⟩
    case cells =>
      intro hlen k hk
      rw [List.length_cons] at hlen hk
      cases k with
      | zero =>
        rw [BitVec.sub_zero, hframe]
        · exact memRead_pushAddr_pushByte _ s
        · exact fun k hk => ne_sub_ofNat s.sp k.succ_pos (by omega)
      | succ k => exact hcells (by omega) k (by omega)
    case frame =>
      intro a ha
      rw [hframe a fun k hk => ha (k + 1) (Nat.succ_lt_succ hk)]
      exact sameMemoryExcept_pushByte _ s a (by simpa using ha 0 (Nat.succ_pos _))

/-! ### Pops after pushes -/

/-- Pops into a list of registers, `sp` off the sentinel before each, walk `sp` up and load the cells above it in
order. -/
theorem pops_walk_up (qs : List RegIndex) (s : State)
    (hoff : ∀ k < qs.length, s.sp + BitVec.ofNat 8 k ≠ Config.spInit) :
    ∃ u, execAll (qs.map fun q => Instr.pop (regByte q)) s = .next u ∧
      u.sp = s.sp + BitVec.ofNat 8 qs.length ∧ (∀ i : RegIndex, i ∉ qs → readReg i u = readReg i s) ∧
      ∀ (j : Nat) (h : j < qs.length), (∀ (l : Nat) (h' : l < qs.length), j < l → qs[l] ≠ qs[j]) →
        readReg qs[j] u = memRead (s.sp + BitVec.ofNat 8 (j + 1)) s := by
  induction qs generalizing s with
  | nil => exact ⟨s, rfl, by simp, fun _ _ => rfl, by simp⟩
  | cons q qs ih =>
    have hfirst : s.sp ≠ Config.spInit := by simpa using hoff 0 (Nat.succ_pos _)
    obtain ⟨u, hrun, hsp, hregs, hloads⟩ := ih (advancePc 2 (popByte q s)) fun k hk => by
      simpa [add_one_add_ofNat] using hoff (k + 1) (Nat.succ_lt_succ hk)
    simp only [advancePc_sp, popByte_sp, add_one_add_ofNat, memRead_advancePc, memRead_popByte] at hsp hloads
    refine ⟨u, (execAll_cons (exec_pop (regByte_toNat q) hfirst) _).trans hrun, hsp, ?regs, ?loads⟩
    case regs =>
      intro i hi
      obtain ⟨hne, hmem⟩ := not_or.1 (List.mem_cons.not.1 hi)
      exact (hregs i hmem).trans (sameRegsExcept_popByte q s i hne)
    case loads =>
      intro j hj hlast
      cases j with
      | zero =>
        have hmem : q ∉ qs := fun h => by
          obtain ⟨l, hl, hlq⟩ := List.getElem_of_mem h
          exact hlast (l + 1) (Nat.succ_lt_succ hl) l.succ_pos hlq
        exact (hregs q hmem).trans (readReg_popByte_same q s)
      | succ j =>
        exact hloads j (Nat.lt_of_succ_lt_succ hj) fun l hl hjl =>
          hlast (l + 1) (Nat.succ_lt_succ hl) (Nat.succ_lt_succ hjl)

/-- As many pushes as keep off the sentinel are fewer than there are cells. -/
theorem lt_of_pushes_off_sentinel {a : Addr} {n : Nat}
    (h : ∀ k, 1 ≤ k → k ≤ n → a - BitVec.ofNat 8 k ≠ Config.spInit) : n < 256 := by
  by_contra hn
  have hlt := (a - Config.spInit - 1#8).isLt
  refine h ((a - Config.spInit - 1#8).toNat + 1) (by omega) (by omega) ?_
  rw [BitVec.ofNat_add, BitVec.ofNat_toNat, BitVec.setWidth_eq, sub_add_cancel, sub_sub_cancel]

/-- The `k`-th cell above the end of a walk down by `n` is the `n - k`-th below its start. -/
theorem sub_ofNat_add_ofNat (a : Addr) {k n : Nat} (h : k ≤ n) :
    a - BitVec.ofNat 8 n + BitVec.ofNat 8 k = a - BitVec.ofNat 8 (n - k) := by
  obtain ⟨m, rfl⟩ := Nat.exists_eq_add_of_le' h
  rw [Nat.add_sub_cancel, BitVec.ofNat_add, ← sub_sub, sub_add_cancel]

/-- Settles O42: the walk down (O41) leaves the bytes where the walk up finds them, the `j + 1`-th cell above its end
being the `n - 1 - j`-th below its start; off the sentinel the pushes are too few to overwrite one another. -/
theorem popsReturnThePushesInReverse : Obligations.PopsReturnThePushesInReverse := by
  intro rs qs s hl hoff
  have hlen := lt_of_pushes_off_sentinel hoff
  obtain ⟨t, hpush, htsp, htregs, -, -, hcells, -⟩ := pushesWalkDown rs s
  obtain ⟨u, hpop, husp, huregs, hloads⟩ := pops_walk_up qs t fun k hk => by
    rw [htsp, sub_ofNat_add_ofNat _ (by omega)]
    exact hoff (rs.length - k) (by omega) (by omega)
  refine ⟨u, (execAll_append hpush _).trans hpop, ?sp, fun i hi => (huregs i hi).trans (htregs i), ?loads⟩
  case sp => rw [husp, htsp, hl, sub_add_cancel]
  case loads =>
    intro j hj hlast
    rw [hloads j hj hlast, htsp, sub_ofNat_add_ofNat _ (by omega), Nat.sub_add_eq, Nat.sub_right_comm]
    exact hcells hlen.le _ (by omega)

end Sys2Proof.Machine
end

section
/-! PROOFS. Faults before any effect: the empty memory after reset (70_reset), an image that does not fit (60_exceptions
R136), a register byte above 7 (R134). -/

namespace Sys2Proof.Machine

/-- Settles O7: the reset state's memory reads 0x00 at `pc`, an unbound opcode byte. -/
theorem resetThenEmptyImageFaults : Obligations.ResetThenEmptyImageFaults :=
  fun regs _ => ⟨rfl, rfl, step_of_opcodeOf_none (s := State.resetWith regs) rfl rfl⟩

/-- The start state of an image that does not fit (R136, D9). -/
theorem start_of_length_gt {image : List Byte} (h : 256 < image.length) (regs : Vector Byte 8) :
    start regs image = enterFault (.loadError .imageTooLong) (State.resetWith regs) :=
  if_neg (not_le.2 h)

/-- Settles O8: `start_of_length_gt`, and the stop of a faulted machine. -/
theorem overlongImageIsLoadError : Obligations.OverlongImageIsLoadError := by
  intro regs image h
  rw [start_of_length_gt h]
  exact ⟨rfl, rfl, _, step_of_noStep rfl⟩

/-- Settles O19: the fault of each instruction's register check. -/
theorem registerByteAboveSevenFaults : Obligations.RegisterByteAboveSevenFaults :=
  fun s _ _ h => ⟨execLdi_bad h s, execPrn_bad h s, execPush_bad h s, fun hsp => execPop_bad h hsp, execMul_bad h s,
    fun hq => execMul_bad_second (Nat.lt_succ_of_le hq) h s⟩

end Sys2Proof.Machine
end

section
/-! PROOFS. The laws of the ALU's two operations (43_alu R105). -/

namespace Sys2Proof.Machine

/-- MUL by a power of two is a shift (R105). -/
theorem alu_mul_two_pow (a : Byte) (k : Nat) : alu .mul a (BitVec.ofNat 8 (2 ^ k)) = a <<< k := by
  have hpow : BitVec.ofNat 8 (2 ^ k) = BitVec.twoPow 8 k :=
    BitVec.eq_of_toNat_eq (by rw [BitVec.toNat_ofNat, BitVec.toNat_twoPow])
  rw [alu, hpow, BitVec.mul_twoPow_eq_shiftLeft]

/-- Settles O47: the ring laws of bytes, and `alu_mul_two_pow`. -/
theorem aluLaws : Obligations.AluLaws := by
  refine ⟨fun op a b => ?comm, fun op a b c => ?assoc, fun a => ⟨add_zero a, mul_one a, mul_zero a⟩,
    fun a k => ⟨alu_mul_two_pow a k, fun hk => (alu_mul_two_pow a k).trans (BitVec.shiftLeft_eq_zero hk)⟩⟩
  case comm =>
    cases op with
    | add => exact add_comm a b
    | mul => exact mul_comm a b
  case assoc =>
    cases op with
    | add => exact add_assoc a b c
    | mul => exact mul_assoc a b c

end Sys2Proof.Machine
end

section
/-! PROOFS. The console text (42_output R96, D10): a byte's numeral as the characters of its decimal digits, and the
lines of an output stream. -/

namespace Sys2Proof.Machine

/-- A digit's character is that far above `0`. -/
theorem digitChar_toNat {d : Nat} (h : d < 10) : (digitChar d).toNat = '0'.toNat + d := by
  interval_cases d <;> rfl

/-- Only the digit 0 is shown as `0`. -/
theorem eq_zero_of_digitChar {d : Nat} (h : d < 10) (hd : digitChar d = '0') : d = 0 := by
  have htoNat := digitChar_toNat h
  rw [hd] at htoNat
  omega

/-- The digits of a byte's numeral (D10). -/
def decimalDigits (v : Byte) : List Nat :=
  if v.toNat < 10 then [v.toNat]
  else if v.toNat < 100 then [v.toNat / 10, v.toNat % 10]
  else [v.toNat / 100, v.toNat / 10 % 10, v.toNat % 10]

/-- The numeral shows the digits. -/
theorem decimal_eq (v : Byte) : decimal v = (decimalDigits v).map digitChar := by
  simp only [decimal, decimalDigits]
  split_ifs <;> rfl

theorem decimalDigits_lt {v : Byte} : ∀ d ∈ decimalDigits v, d < 10 := by
  have hlt := v.isLt
  simp only [decimalDigits]
  split_ifs <;> simp <;> omega

theorem decimalDigits_length (v : Byte) : 1 ≤ (decimalDigits v).length ∧ (decimalDigits v).length ≤ 3 := by
  simp only [decimalDigits]
  split_ifs <;> simp

theorem decimalDigits_value (v : Byte) : (decimalDigits v).foldl (fun n d => 10 * n + d) 0 = v.toNat := by
  simp only [decimalDigits]
  split_ifs <;> simp only [List.foldl_cons, List.foldl_nil] <;> omega

/-- No leading zero. -/
theorem decimalDigits_head {v : Byte} (h : (decimalDigits v).head? = some 0) : v.toNat = 0 := by
  simp only [decimalDigits] at h
  split_ifs at h <;> simp only [List.head?_cons, Option.some.injEq] at h <;> omega

/-- Characters of digits read left to right have the value of the digits. -/
theorem foldl_digitChar {ds : List Nat} (h : ∀ d ∈ ds, d < 10) (n : Nat) :
    (ds.map digitChar).foldl (fun n c => 10 * n + (c.toNat - '0'.toNat)) n = ds.foldl (fun n d => 10 * n + d) n := by
  rw [List.foldl_map]
  refine List.foldl_ext _ _ _ fun m d hd => ?_
  rw [digitChar_toNat (h d hd), Nat.add_sub_cancel_left]

/-- The numeral's characters are decimal digits. -/
theorem toNat_mem_decimal {v : Byte} {c : Char} (h : c ∈ decimal v) :
    '0'.toNat ≤ c.toNat ∧ c.toNat ≤ '9'.toNat := by
  rw [decimal_eq] at h
  obtain ⟨d, hd, rfl⟩ := List.mem_map.1 h
  have hlt := decimalDigits_lt d hd
  rw [digitChar_toNat hlt]
  exact ⟨Nat.le_add_right _ _, Nat.add_le_add_left (Nat.le_of_lt_succ hlt) _⟩

/-- A numeral that begins with 0 is that of the byte 0. -/
theorem eq_zero_of_decimal_head {v : Byte} (h : (decimal v).head? = some '0') : v = 0 := by
  rw [decimal_eq, List.head?_map, Option.map_eq_some_iff] at h
  obtain ⟨d, hd, hchar⟩ := h
  have hzero := eq_zero_of_digitChar (decimalDigits_lt d (List.mem_of_head? hd)) hchar
  exact BitVec.eq_of_toNat_eq (decimalDigits_head (hzero ▸ hd))

/-- Two output streams one after the other are shown one after the other. -/
theorem consoleText_append (us vs : List Byte) : consoleText (us ++ vs) = consoleText us ++ consoleText vs := by
  induction us with
  | nil => rfl
  | cons u us ih => simp [consoleText, ih]

/-- Settles O49: the numeral through its digits, the text line by line. -/
theorem consoleShowsDecimalLines : Obligations.ConsoleShowsDecimalLines := by
  refine ⟨fun v => ⟨?value, fun c => toNat_mem_decimal, ?_, ?_, eq_zero_of_decimal_head⟩, consoleText_append,
    fun _ => rfl, rfl⟩
  case value => rw [decimal_eq, foldl_digitChar decimalDigits_lt, decimalDigits_value]
  all_goals simp [decimal_eq, decimalDigits_length]

end Sys2Proof.Machine
end
